-- ==== Sys2Proof/Word.lean ====
section
/-! DEFINITION. The word types of the machine: bytes, instruction words, addresses, register contents, register numbers. -/

namespace Sys2Proof

/-- One byte, the unit an address names (10_state.md R13). -/
abbrev Byte := BitVec 8

/-- One instruction word: every instruction is 32 bits (00_scope.md R3 `ILEN`, 30_encoding.md R34). -/
abbrev Word := BitVec 32

/-- An effective address (00_scope.md R3 `EA_WIDTH`) or a program counter (10_state.md R10). -/
abbrev Addr := BitVec 32

/-- The contents of a general register (00_scope.md R3 `GPR_WIDTH`). -/
abbrev DWord := BitVec 64

/-- The contents of a vector register (00_scope.md R3 `VR_WIDTH`). -/
abbrev VWord := BitVec 128

/-- The number of a general register, `r0` to `r31`: the fields RA and RB are 5 bits (10_state.md R7). -/
abbrev GReg := BitVec 5

/-- The number of a vector register, `v0` to `v127` (10_state.md R8). -/
abbrev VReg := BitVec 7

end Sys2Proof
end

