-- ==== Sys2Proof/Config.lean ====
section
/-! DEFINITION. What the spec leaves to the platform (00_scope.md R4), as plain data that a state carries and no step changes, and
the free values: constants with no body, so that nothing can be proved of their values. -/

namespace Sys2Proof.Machine

/-- A range of aligned 16-byte blocks, `first` to `last` inclusive; block `n` holds the addresses `16n` to `16n + 15`. -/
structure BlockRange where
  first : Nat
  last : Nat
deriving DecidableEq, Repr

/-- The open parameters of 00_scope.md R4. DESIGN CHOICE (log 5): they are data in the state, so that a statement over every state
is one over every value of them; safe. -/
structure Platform where
  /-- `Admit`: the blocks the platform backs with writable memory (20_memory.md R28). Blocks and not bytes, so that `Admit` is
  constant on every aligned 16-byte block, as R28 requires. -/
  admitted : List BlockRange
  /-- `RESERVATION_TRACKING`: a reservation table exists and is enabled (10_state.md R14). -/
  reservationTracking : Bool
  /-- `RESERVATION_GRANULE` is `16 * 2 ^ granuleBlocksLog2` bytes: a power of two, at least 16 (20_memory.md R30). -/
  granuleBlocksLog2 : Nat
  /-- `PROG_BASE`, the address of the program's first word (70_reset_and_hazards.md R70). -/
  progBase : Addr
  /-- The number of the program's words (70_reset_and_hazards.md R70). -/
  progLen : Nat
  /-- `VECTOR_AVAILABLE`, the launch premise that the vector facility is enabled for the whole run (60_exceptions.md R61). -/
  vectorAvailable : Bool
deriving DecidableEq, Repr

/-- FREE VALUE (log 10): whether a store clears the storing agent's own reservation on the stored granule, the draw
`OWN_RESERVATION_CLEARED` (20_memory.md R30, 92_eei_decisions.md D13). -/
opaque Config.ownReservationCleared : Nat → Bool

/-- FREE VALUE (log 11): which agent takes the next step (60_exceptions.md R67, 92_eei_decisions.md D14). -/
opaque Config.nextAgent : Nat → Nat

/-- FREE VALUE (log 12): how many pending bytes arrive in the shared memory between two steps (20_memory.md R26, R29). -/
opaque Config.arrivals : Nat → Nat

/-- FREE VALUE (log 12): whose pending byte arrives (20_memory.md R26, R29). -/
opaque Config.arrivalAgent : Nat → Nat

/-- FREE VALUE (log 12): which pending byte of that agent arrives (20_memory.md R26, R29). -/
opaque Config.arrivalByte : Nat → Nat

end Sys2Proof.Machine
end

