-- ==== Sys2Proof/Syntax.lean ====
section
/-! DEFINITION. The instruction set: one constructor per row of spec/opcode_table.json. -/

namespace Sys2Proof

/-- The two instructions in scope (00_scope.md R1). `vs` is the vector register stored, `ra` the FIELD RA (0 selects the
constant zero, 30_encoding.md R39) and `rb` the general register that is the index. -/
inductive Instr where
  /-- `stvxl VS, RA0, RB`, Store Vector Indexed LRU, form X (40_vector_store.md R50). -/
  | stvxl (vs : VReg) (ra rb : GReg)
  /-- `stvxl128 VS, RA0, RB`, Store Vector Indexed LRU 128, form VX128_1 (40_vector_store.md R51). -/
  | stvxl128 (vs : VReg) (ra rb : GReg)
deriving DecidableEq, Repr

end Sys2Proof
end

