-- ==== Sys2Proof/Machine/State.lean ====
section
/-! DEFINITION. The state of the machine as plain data, the reasons a step can stop, and the state after reset. -/

namespace Sys2Proof.Machine

/-- The name of a register an instruction can read. -/
inductive RegName where
  /-- General register `r<n>` (10_state.md R7). -/
  | gpr (n : GReg)
  /-- Vector register `v<n>` (10_state.md R8). -/
  | vr (n : VReg)
deriving DecidableEq, Repr

/-- Faults: the step does not complete and the run has ended (60_exceptions.md R57, R64). All are safe: the model stops. -/
inductive Fault where
  /-- Raised by the store when the platform does not back the block at `base` (60_exceptions.md R60). Safe. -/
  | storeNotAdmitted (base : Addr)
  /-- Raised when an operand register is read that the launch state marks UNSET (70_reset_and_hazards.md R71). Safe. -/
  | unsetRegister (r : RegName)
  /-- Raised by the fetch when the platform backs no memory at a byte of the program word at `pc`, so that no byte stands there; the
  launch premises rule this out (70_reset_and_hazards.md R70; DESIGN CHOICE, log 4). Safe. -/
  | unsetProgramByte (pc : Addr)
deriving DecidableEq, Repr

/-- Refusals: the model gives the step no meaning (60_exceptions.md R58). All are safe: the model stops. -/
inductive Refusal where
  /-- An instruction with no meaning yet: raised by an arm of `exec` only; no arm does so in this model. Safe. -/
  | notModelled (mnemonic : String)
  /-- Raised by the fetch when the word matches neither pattern (30_encoding.md R43, R44, R45). Safe. -/
  | notInScope (w : Word)
  /-- Raised by the fetch when `pc[1:0] ≠ 0` (20_memory.md R24). Safe. -/
  | pcMisaligned
  /-- Raised by the store at `pc = 0xFFFFFFFC`, which has no successor (40_vector_store.md R53). Safe. -/
  | pcOverflow
  /-- Raised by the store when its block overlaps the program's words (20_memory.md R32). Safe. -/
  | storeIntoProgramText
  /-- Raised by the fetch when `pc` is neither a program word's address nor the end address (70_reset_and_hazards.md R70,
  90_conflicts.md C9). Safe. -/
  | fetchNotAdmitted
  /-- Raised by the store in a run without the launch premise `VECTOR_AVAILABLE`, of which the spec claims nothing
  (60_exceptions.md R61, 93_implementation_defined.md U14; DESIGN CHOICE, log 9). Safe. -/
  | vectorUnavailable
deriving DecidableEq, Repr

/-- Memory: bytes by address, in one canonical form (`Memory.wf` in Machine/Ops.lean). An address that is not listed reads as
`Memory.unlisted` (DESIGN CHOICE, log 4; unsafe); which addresses hold a byte at all is the platform's `Admit` (`Platform.view`). -/
abbrev Memory := List Host.Cell

/-- One hardware thread (60_exceptions.md R67). -/
structure Agent where
  /-- The agent's identity, by which the reservation table names it (10_state.md R14). -/
  id : Nat
  /-- General registers `r0` to `r31` (10_state.md R7). -/
  gpr : Vector DWord 32
  /-- Vector registers `v0` to `v127` (10_state.md R8). -/
  vr : Vector VWord 128
  /-- The registers the launch state leaves UNSET (70_reset_and_hazards.md R69, R71); what `gpr` and `vr` hold for such a register
  is never read (log 2). -/
  unset : List RegName
  /-- The program counter (10_state.md R10). -/
  pc : Addr
  /-- Byte writes of this agent's completed stores that have not arrived in the shared memory, oldest first (20_memory.md R26,
  R29; log 12). -/
  pending : List Host.Cell
deriving DecidableEq, Repr

/-- The machine: the agents, what they share, the platform's parameters, and the counter of free values. -/
structure State where
  /-- The agent that takes the next step. -/
  cur : Agent
  /-- Every other agent (60_exceptions.md R67). -/
  others : List Agent
  /-- The shared memory (10_state.md R13). -/
  mem : Memory
  /-- The reservation table: pairs of an agent and the base address of a granule, rising, no pair twice (10_state.md R14). -/
  resv : List (Nat × Nat)
  /-- The open parameters, which no step changes (00_scope.md R4, 10_state.md R16). -/
  platform : Platform
  /-- The MODEL's own: how many free values have been drawn. -/
  draw : Nat
deriving DecidableEq, Repr

/-- The platform at reset. The spec fixes none of it (00_scope.md R4). DESIGN CHOICE (log 5, 6, 8, 9), unsafe: every block backed,
a reservation table with PRESUMED 128-byte granules (GK7), an empty program at 0x00010000, the vector facility enabled. -/
def Platform.reset : Platform where
  admitted := [⟨0, 0xFFFFFFF⟩]
  reservationTracking := true
  granuleBlocksLog2 := 3
  progBase := 0x00010000#32
  progLen := 0
  vectorAvailable := true

/-- An agent at reset. The spec fixes none of it (10_state.md R17). DESIGN CHOICE (log 1, 2, 3, 7), unsafe. -/
def Agent.reset : Agent where
  id := 0
  gpr := Vector.replicate 32 0#64
  vr := Vector.replicate 128 0#128
  unset := []
  pc := 0x00010000#32
  pending := []

/-- The machine right after reset. The spec has no reset (70_reset_and_hazards.md R69); every value is named in log 1 to log 10. -/
def State.reset : State where
  cur := Agent.reset
  others := []
  mem := []
  resv := []
  platform := Platform.reset
  draw := 0

end Sys2Proof.Machine
end

