-- ==== Sys2Proof/Machine/Flags.lean ====
section
/-! DEFINITION. The flags of the machine: none. Both instructions read no flag and write no flag, and the condition register, XER and
the vector status register are not state of the spec's model (10_state.md R11, R12; 40_vector_store.md R52, R56 item 12). The address sum
of R48 has no carry out and no overflow. So this file computes nothing. -/
end

