-- ==== Sys2Proof/Machine/Ops.lean ====
section
/-! DEFINITION. The named operations over memory, the platform's parameters, pending byte writes and the reservation table, and the
two ways a step can stop. -/

namespace Sys2Proof.Machine

/-! ## Stopping -/

/-- `raise Fault(kind, info)`: the one operation by which a step faults. The spec has no trap entry, no handler and no return from
one: nothing is saved and the run ends with the state as it was (60_exceptions.md R57, R64, R65). -/
def raise (f : Fault) : Host.Outcome State Fault Refusal := .fault f

/-- `refuse(reason)`: the model gives the step no meaning (60_exceptions.md R58). -/
def refuse (r : Refusal) : Host.Outcome State Fault Refusal := .refused r

/-! ## Memory -/

/-- What an address that is not listed reads as. The spec leaves the bytes at launch to a parameter (70_reset_and_hazards.md R69).
DESIGN CHOICE (log 4), unsafe for a run from `State.reset`. -/
def Memory.unlisted : Byte := 0x00#8

/-- The canonical form: addresses rise strictly and lie in the 2^32 bytes of the address space (10_state.md R13), and no byte is listed
that an unlisted address reads as. -/
abbrev Memory.wf (m : Memory) : Prop :=
  m.Pairwise (fun c d => c.1 < d.1) ∧ ∀ c ∈ m, c.1 < 2 ^ 32 ∧ c.2 ≠ Memory.unlisted

/-- The byte at an address; the list is searched in its rising order. -/
def Memory.read : Memory → Nat → Byte
  | [], _ => Memory.unlisted
  | (k, b) :: m, a => if a < k then Memory.unlisted else if a = k then b else Memory.read m a

/-- `MemWriteByte(addr, b)` (00_scope.md section 5.3): the entries below the address, the byte itself where it must be listed, the
entries above. -/
def Memory.write (m : Memory) (a : Nat) (b : Byte) : Memory :=
  m.takeWhile (fun c => decide (c.1 < a)) ++ (if b = Memory.unlisted then [] else [(a, b)]) ++
    m.dropWhile (fun c => decide (c.1 ≤ a))

/-- Byte writes performed one after the other, the first of the list first. -/
def Memory.writeAll (m : Memory) (ws : List Host.Cell) : Memory :=
  ws.foldl (fun acc w => acc.write w.1 w.2) m

/-- The byte writes of `MemWrite(addr, n, val)`: the most significant byte goes to the lowest address (20_memory.md R20). -/
def cellsBE (addr n : Nat) (val : BitVec (8 * n)) : List Host.Cell :=
  (List.range n).map fun k => (addr + k, val.extractLsb' (8 * (n - k - 1)) 8)

/-- `MemWrite(addr, n, val)` (20_memory.md R20). -/
def Memory.writeBE (m : Memory) (addr n : Nat) (val : BitVec (8 * n)) : Memory :=
  m.writeAll (cellsBE addr n val)

/-- The `n` bytes from `addr` on, through a view of memory; `none` where one of them has no value. -/
def bytesFrom (view : Nat → Option Byte) (addr : Nat) : Nat → Option (List Byte)
  | 0 => some []
  | n + 1 =>
    match view addr, bytesFrom view (addr + 1) n with
    | some b, some bs => some (b :: bs)
    | _, _ => none

/-- The number that bytes spell, the first the most significant. -/
def natOfBytes (bs : List Byte) : Nat := bs.foldl (fun acc b => acc * 256 + b.toNat) 0

/-- `MemRead(addr, n)` through a view of memory (20_memory.md R20). -/
def readBE (view : Nat → Option Byte) (addr n : Nat) : Option (BitVec (8 * n)) :=
  (bytesFrom view addr n).map fun bs => BitVec.ofNat (8 * n) (natOfBytes bs)

/-! ## The platform's parameters -/

/-- `Admit(a)`: the platform backs the block that holds `a` (20_memory.md R28). -/
def Platform.admits (p : Platform) (a : Addr) : Bool :=
  p.admitted.any fun r => decide (r.first ≤ a.toNat / 16) && decide (a.toNat / 16 ≤ r.last)

/-- An address of the address space that the platform backs with memory. -/
def Platform.backs (p : Platform) (a : Nat) : Bool := decide (a < 2 ^ 32) && p.admits (BitVec.ofNat 32 a)

/-- What stands at an address: a byte where the platform backs it, nothing elsewhere (70_reset_and_hazards.md R69, 10_state.md R17). -/
def Platform.view (p : Platform) (m : Memory) (a : Nat) : Option Byte := if p.backs a then some (m.read a) else none

/-- The address just after the program's last word, `PROG_BASE + 4n` (70_reset_and_hazards.md R70, R73). -/
abbrev Platform.progEnd (p : Platform) : Nat := p.progBase.toNat + 4 * p.progLen

/-- An address of a byte of one of the program's words (70_reset_and_hazards.md R70). -/
def Platform.inProgram (p : Platform) (a : Nat) : Bool :=
  decide (p.progBase.toNat ≤ a) && decide (a < p.progEnd)

/-- The block `base … base + 15` and the program's words share a byte (20_memory.md R32). -/
def Platform.overlapsProgram (p : Platform) (base : Addr) : Bool :=
  decide (max base.toNat p.progBase.toNat < min (base.toNat + 16) p.progEnd)

/-- `RESERVATION_GRANULE`, in bytes (20_memory.md R30). -/
abbrev Platform.granuleSize (p : Platform) : Nat := 16 * 2 ^ p.granuleBlocksLog2

/-- `granule(a)`: the base address of the granule that holds `a` (20_memory.md R30). -/
abbrev Platform.granule (p : Platform) (a : Addr) : Nat := a.toNat / p.granuleSize * p.granuleSize

/-! ## The acting agent -/

/-- The acting agent with `pc` moved past one word (40_vector_store.md R53). -/
def State.advancePc (s : State) : State := { s with cur := { s.cur with pc := s.cur.pc + 4#32 } }

/-- The byte at an address of the shared memory; `none` where the platform backs none. -/
def State.byteAt (s : State) (a : Nat) : Option Byte := s.platform.view s.mem a

/-- Memory as the acting agent sees it: its own stores take effect in program order, whether or not they have arrived in the shared
memory (20_memory.md R29, item 1). -/
def State.ownMemory (s : State) : Memory := s.mem.writeAll s.cur.pending

/-- The byte at an address as the acting agent sees it; `none` where the platform backs none. -/
def State.ownByte (s : State) (a : Nat) : Option Byte := s.platform.view s.ownMemory a

/-- `MemRead(addr, n)` as the acting agent sees memory (20_memory.md R20, R29). -/
def State.ownRead (s : State) (addr n : Nat) : Option (BitVec (8 * n)) := readBE s.ownByte addr n

/-- Byte lane `k` of a vector register, `v[127-8k : 120-8k]`; lane 0 is the most significant byte (10_state.md R9). -/
def lane (v : VWord) (k : Nat) : Byte := v.extractLsb' (120 - 8 * k) 8

/-- The sixteen byte writes of a store: lane `k` goes to `base + k`, in ascending order (40_vector_store.md R49). -/
def laneWrites (base : Addr) (v : VWord) : List Host.Cell :=
  (List.range 16).map fun k => (base.toNat + k, lane v k)

/-- The byte writes of one instruction. With one agent they are performed at once (20_memory.md R26); with several they join the
agent's pending writes and arrive in the shared memory later, one by one (R26, R29; log 12, log 13). -/
def State.performWrites (s : State) (ws : List Host.Cell) : State :=
  if s.others.isEmpty then
    { s with mem := s.mem.writeAll (s.cur.pending ++ ws), cur := { s.cur with pending := [] } }
  else
    { s with cur := { s.cur with pending := s.cur.pending ++ ws } }

/-! ## Reservations -/

/-- Whether `ClearReservations` at the granule `g` keeps a pair of the table: a pair of another granule stays; on `g` itself another
agent's goes, and the storing agent's own one goes or stays by the draw `ownCleared` (20_memory.md R30). -/
def keepsReservation (storing g : Nat) (ownCleared : Bool) (r : Nat × Nat) : Bool :=
  decide (r.2 ≠ g) || (decide (r.1 = storing) && !ownCleared)

/-- `ClearReservations(base, 16)` by the acting agent; one free value is drawn (20_memory.md R30; log 10). -/
def State.clearReservations (s : State) (base : Addr) : State :=
  { s with
    resv :=
      if s.platform.reservationTracking then
        s.resv.filter (keepsReservation s.cur.id (s.platform.granule base) (Config.ownReservationCleared s.draw))
      else s.resv
    draw := s.draw + 1 }

end Sys2Proof.Machine
end

