-- ==== Sys2Proof/Machine/Operands.lean ====
section
/-! DEFINITION. The operand forms: RA0, RB, VS and the one addressing mode (30_encoding.md section 4, 40_vector_store.md R48). -/

namespace Sys2Proof.Machine

/-- `x[r]`, the contents of a general register; `r0` is an ordinary register (10_state.md R7, 30_encoding.md R40). -/
def Agent.gprValue (ag : Agent) (r : GReg) : DWord := ag.gpr[r.toNat]'r.isLt

/-- `v[r]`, the contents of a vector register (10_state.md R8). -/
def Agent.vrValue (ag : Agent) (r : VReg) : VWord := ag.vr[r.toNat]'r.isLt

/-- Operand RA0: the constant zero when the FIELD is 0, else the register it names (30_encoding.md R39). -/
def Agent.ra0 (ag : Agent) (ra : GReg) : DWord := if ra = 0#5 then 0#64 else ag.gprValue ra

/-- The registers an instruction reads, in the order in which an unset one is found: RA only if the field is not 0, then RB, then VS
(60_exceptions.md R63, 30_encoding.md R39). -/
def operandRegs (vs : VReg) (ra rb : GReg) : List RegName :=
  (if ra = 0#5 then [] else [.gpr ra]) ++ [.gpr rb, .vr vs]

/-- The first of some registers that the launch state leaves UNSET (70_reset_and_hazards.md R71). -/
def Agent.firstUnset (ag : Agent) (rs : List RegName) : Option RegName :=
  rs.find? fun r => decide (r ∈ ag.unset)

/-- The effective address: the 64-bit sum without carry, its low four bits cleared, its low 32 bits kept (40_vector_store.md R48,
90_conflicts.md C8). -/
def effectiveAddress (a b : DWord) : Addr := ((a + b) &&& ~~~(0xF#64)).setWidth 32

/-- `base` of a store by the acting agent (40_vector_store.md R48). -/
def State.storeBase (s : State) (ra rb : GReg) : Addr :=
  effectiveAddress (s.cur.ra0 ra) (s.cur.gprValue rb)

end Sys2Proof.Machine
end

