-- ==== Sys2Proof/Machine/VectorStore.lean ====
section
/-! DEFINITION. The vector store family: `stvxl` and `stvxl128` (40_vector_store.md). The two have one data effect (R51). -/

namespace Sys2Proof.Machine

/-- The state a store leaves: lines 8 to 10 of 40_vector_store.md R55. The cache hint changes no state (20_memory.md R33,
40_vector_store.md R54). -/
def State.afterStore (s : State) (base : Addr) (v : VWord) : State :=
  ((s.clearReservations base).performWrites (laneWrites base v)).advancePc

/-- Lines 6 to 10 of 40_vector_store.md R55: the store of `v` at `base`, with the guards on `base`. -/
def State.storeVector (s : State) (base : Addr) (v : VWord) : Host.Outcome State Fault Refusal :=
  if s.platform.admits base = false then raise (.storeNotAdmitted base)
  else if s.platform.overlapsProgram base then refuse .storeIntoProgramText
  else .next (s.afterStore base v)

/-- Lines 3 to 10 of 40_vector_store.md R55 under the launch premise `VECTOR_AVAILABLE` (60_exceptions.md R61; log 9). -/
def storeIndexed (vs : VReg) (ra rb : GReg) (s : State) : Host.Outcome State Fault Refusal :=
  if s.platform.vectorAvailable = false then refuse .vectorUnavailable
  else if s.cur.pc = 0xFFFFFFFC#32 then refuse .pcOverflow
  else
    match s.cur.firstUnset (operandRegs vs ra rb) with
    | some r => raise (.unsetRegister r)
    | none => s.storeVector (s.storeBase ra rb) (s.cur.vrValue vs)

/-- `stvxl VS, RA0, RB` (40_vector_store.md R50). -/
def execStvxl (vs : VReg) (ra rb : GReg) (s : State) : Host.Outcome State Fault Refusal :=
  storeIndexed vs ra rb s

/-- `stvxl128 VS, RA0, RB` (40_vector_store.md R51). -/
def execStvxl128 (vs : VReg) (ra rb : GReg) (s : State) : Host.Outcome State Fault Refusal :=
  storeIndexed vs ra rb s

end Sys2Proof.Machine
end

