-- ==== Sys2Proof/Machine/Dispatch.lean ====
section
/-! DEFINITION. The one match that gives every instruction its meaning. -/

namespace Sys2Proof.Machine

def exec (i : Instr) (s : State) : Host.Outcome State Fault Refusal :=
  match i with
  | .stvxl vs ra rb => Sys2Proof.Machine.execStvxl vs ra rb s
  | .stvxl128 vs ra rb => Sys2Proof.Machine.execStvxl128 vs ra rb s

end Sys2Proof.Machine
end

