-- ==== Sys2Proof/WellFormed.lean ====
section
/-! DEFINITION. Which instruction terms have an encoding. -/

namespace Sys2Proof

/-- The field VS of form X has 5 bits, so `stvxl` names `v0` to `v31` only (30_encoding.md R41, R47), while the split field of
`stvxl128` names all 128 (R42). Every value of RA and RB is legal (30_encoding.md R43). -/
abbrev Instr.WellFormed : Instr → Prop
  | .stvxl vs _ _ => vs.toNat < 32
  | .stvxl128 _ _ _ => True

end Sys2Proof
end

