-- ==== Sys2Proof/Decode.lean ====
section
/-! DEFINITION. The fields of the two forms, the decoder, and the encoder (30_encoding.md). Bit positions are counted from the
least significant bit, which the spec writes `w[hi:lo]` (00_scope.md R5). -/

namespace Sys2Proof

/-- `OPCD`, the primary opcode, `w[31:26]` (30_encoding.md R35, R37). -/
abbrev fieldOpcd (w : Word) : BitVec 6 := w.extractLsb' 26 6

/-- VS of form X and `VD128l` of form VX128_1, `w[25:21]` (30_encoding.md R35, R37). -/
abbrev fieldVs (w : Word) : BitVec 5 := w.extractLsb' 21 5

/-- `RA`, `w[20:16]` (30_encoding.md R35, R37). -/
abbrev fieldRa (w : Word) : GReg := w.extractLsb' 16 5

/-- `RB`, `w[15:11]` (30_encoding.md R35, R37). -/
abbrev fieldRb (w : Word) : GReg := w.extractLsb' 11 5

/-- `XO` of form X, `w[10:1]` (30_encoding.md R35). -/
abbrev fieldXo10 (w : Word) : BitVec 10 := w.extractLsb' 1 10

/-- `Rc` of form X, `w[0:0]` (30_encoding.md R35). -/
abbrev fieldRc (w : Word) : BitVec 1 := w.extractLsb' 0 1

/-- `XO` of form VX128_1, `w[10:4]` (30_encoding.md R37). -/
abbrev fieldXo7 (w : Word) : BitVec 7 := w.extractLsb' 4 7

/-- `VD128h`, `w[3:2]` (30_encoding.md R37). -/
abbrev fieldVd128h (w : Word) : BitVec 2 := w.extractLsb' 2 2

/-- The two low bits of form VX128_1, `w[1:0]`: fixed opcode bits (30_encoding.md R45, 90_conflicts.md C1). -/
abbrev fieldLow2 (w : Word) : BitVec 2 := w.extractLsb' 0 2

/-- The instruction a fetched word stands for; `none` where the spec refuses it as `NotInScope` (30_encoding.md R43). `stvxl`
needs Rc = 0 (R44) and `stvxl128` the low bits `11` (R45). VS of `stvxl` is the 5-bit field (R41), VS of `stvxl128` is
`(VD128h << 5) | VD128l` (R42). -/
def decodeWord (w : Word) : Option Instr :=
  if fieldOpcd w = 31#6 ∧ fieldXo10 w = 487#10 ∧ fieldRc w = 0#1 then
    some (.stvxl ((fieldVs w).setWidth 7) (fieldRa w) (fieldRb w))
  else if fieldOpcd w = 4#6 ∧ fieldXo7 w = 60#7 ∧ fieldLow2 w = 3#2 then
    some (.stvxl128 ((fieldVd128h w).setWidth 7 <<< 5 ||| (fieldVs w).setWidth 7) (fieldRa w) (fieldRb w))
  else
    none

/-- Why bytes are no instruction. -/
inductive DecodeError where
  /-- The word matches neither pattern (30_encoding.md R43, R44, R45). -/
  | notInScope (w : Word)
  /-- Fewer than the four bytes of a word (30_encoding.md R34). -/
  | truncated
deriving DecidableEq, Repr

/-- The word of four bytes, the first the most significant (20_memory.md R20, R22). -/
def wordOfBytes (b0 b1 b2 b3 : Byte) : Word :=
  b0.setWidth 32 <<< 24 ||| b1.setWidth 32 <<< 16 ||| b2.setWidth 32 <<< 8 ||| b3.setWidth 32

/-- Decode the instruction at the head of a list of bytes, the byte at the lowest address first and most significant
(30_encoding.md R34, 20_memory.md R22), and give the bytes after it. -/
def decode : List Byte → Except DecodeError (Instr × List Byte)
  | b0 :: b1 :: b2 :: b3 :: rest =>
    match decodeWord (wordOfBytes b0 b1 b2 b3) with
    | some i => .ok (i, rest)
    | none => .error (.notInScope (wordOfBytes b0 b1 b2 b3))
  | _ => .error .truncated

/-- The word of an instruction: the opcode word and the shifted operand fields (30_encoding.md R36, R38). The VS of `stvxl` is a 5-bit
field: a well-formed `stvxl` names no higher register. -/
def encode : Instr → Word
  | .stvxl vs ra rb =>
    0x7C0003CE#32 ||| (vs.setWidth 32 &&& 31#32) <<< 21 ||| ra.setWidth 32 <<< 16 ||| rb.setWidth 32 <<< 11
  | .stvxl128 vs ra rb =>
    0x100003C3#32 ||| (vs.setWidth 32 &&& 31#32) <<< 21 ||| ra.setWidth 32 <<< 16 ||| rb.setWidth 32 <<< 11 |||
      (vs.setWidth 32 >>> 5) <<< 2

/-- The four bytes of a word as memory holds them, most significant first (20_memory.md R22). -/
def wordBytes (w : Word) : List Byte :=
  [w.extractLsb' 24 8, w.extractLsb' 16 8, w.extractLsb' 8 8, w.extractLsb' 0 8]

/-- The bytes of an instruction in memory. -/
def encodeBytes (i : Instr) : List Byte := wordBytes (encode i)

/-- What the decoder reads from an instruction whose bits, numbered as spec/opcode_table.json numbers them, are the low `nbits`
bits of `w`. -/
def decodeTableWord (nbits w : Nat) : Option Instr :=
  match decode (wordBytes (BitVec.ofNat 32 (w % 2 ^ nbits))) with
  | .ok (i, _) => some i
  | .error _ => none

end Sys2Proof
end

