-- ==== Sys2Proof/Machine/Fetch.lean ====
section
/-! DEFINITION. Fetching the acting agent's next instruction, and loading a program from outside (70_reset_and_hazards.md R70). -/

namespace Sys2Proof.Machine

/-- What the acting agent finds at its `pc`. -/
inductive Fetched where
  /-- The agent has ended: it takes no further step (70_reset_and_hazards.md R73). -/
  | ended
  /-- The instruction to run. -/
  | run (i : Instr)
  /-- The fetch faults. -/
  | fault (f : Fault)
  /-- The fetch is refused. -/
  | refuse (r : Refusal)
deriving DecidableEq, Repr

/-- The word at `pc`, `MemRead(pc, 4)` (30_encoding.md R34, 20_memory.md R22). -/
def State.fetchWord (s : State) : Option Word := readBE s.byteAt s.cur.pc.toNat 4

/-- An agent has ended when its `pc` is the address just after the program's last word (70_reset_and_hazards.md R73). -/
def Agent.ended (p : Platform) (ag : Agent) : Bool := decide (ag.pc.toNat = p.progEnd)

/-- Lines 1 and 2 of 40_vector_store.md R55, with the legal addresses of 70_reset_and_hazards.md R70. -/
def State.fetch (s : State) : Fetched :=
  if s.cur.pc.toNat % 4 ≠ 0 then .refuse .pcMisaligned
  else if s.cur.ended s.platform then .ended
  else if s.platform.inProgram s.cur.pc.toNat = false then .refuse .fetchNotAdmitted
  else
    match s.fetchWord with
    | none => .fault (.unsetProgramByte s.cur.pc)
    | some w =>
      match decodeWord w with
      | none => .refuse (.notInScope w)
      | some i => .run i

/-- The blocks of a program are backed by memory: unchanged where they already are, else one range more (70_reset_and_hazards.md R70). -/
def Platform.admitProgram (p : Platform) : Platform :=
  if (List.range (4 * p.progLen)).all (fun k => p.admits (BitVec.ofNat 32 (p.progBase.toNat + k))) then p
  else { p with admitted := ⟨p.progBase.toNat / 16, (p.progEnd - 1) / 16⟩ :: p.admitted }

/-- The program `ws` stands at `base`, its words big-endian (70_reset_and_hazards.md R70). This is done from outside the machine, before a
run (log 8). -/
def State.load (s : State) (base : Addr) (ws : List Word) : State :=
  { s with
    mem := s.mem.writeAll (ws.zipIdx.flatMap fun w => cellsBE (base.toNat + 4 * w.2) 4 w.1)
    platform := Platform.admitProgram { s.platform with progBase := base, progLen := ws.length } }

end Sys2Proof.Machine
end

