-- ==== Sys2Proof/Machine/Schedule.lean ====
section
/-! DEFINITION. What happens between two steps when several agents share the machine: pending bytes arrive in the shared memory, and any
agent may take the next step (20_memory.md R26, R29; 60_exceptions.md R67). With one agent nothing happens. -/

namespace Sys2Proof.Machine

/-- Every agent, the acting one first. -/
def State.agents (s : State) : List Agent := s.cur :: s.others

/-- One pending byte of an agent arrives in the shared memory. `pick` chooses among its pending writes; writes to one byte arrive in
program order, so the oldest to the chosen address is the one that does (20_memory.md R29). -/
def Agent.arrive (ag : Agent) (m : Memory) (pick : Nat) : Agent × Memory :=
  match ag.pending[pick % ag.pending.length]? with
  | none => (ag, m)
  | some c =>
    match ag.pending.find? (fun w => w.1 == c.1) with
    | none => (ag, m)
    | some w => ({ ag with pending := ag.pending.eraseP (fun w => w.1 == c.1) }, m.write w.1 w.2)

/-- One pending byte arrives: whose and which are free values (log 12). -/
def State.arriveOne (s : State) : State :=
  match Config.arrivalAgent s.draw % (s.others.length + 1) with
  | 0 =>
    let r := s.cur.arrive s.mem (Config.arrivalByte s.draw)
    { s with cur := r.1, mem := r.2, draw := s.draw + 1 }
  | j + 1 =>
    match s.others[j]? with
    | none => { s with draw := s.draw + 1 }
    | some ag =>
      let r := ag.arrive s.mem (Config.arrivalByte s.draw)
      { s with others := s.others.set j r.1, mem := r.2, draw := s.draw + 1 }

/-- `n` pending bytes arrive one after the other. -/
def State.arriveMany : Nat → State → State
  | 0, s => s
  | n + 1, s => State.arriveMany n s.arriveOne

/-- The agent that takes the next step is a free value: any of them, the acting one included (60_exceptions.md R67; log 11). -/
def State.handOver (s : State) : State :=
  match Config.nextAgent s.draw % (s.others.length + 1) with
  | 0 => { s with draw := s.draw + 1 }
  | j + 1 =>
    match s.others[j]? with
    | none => { s with draw := s.draw + 1 }
    | some ag => { s with cur := ag, others := s.others.set j s.cur, draw := s.draw + 1 }

/-- What happens after a step: with one agent nothing; with several, any number of pending bytes arrive and any agent is next. -/
def State.afterStep (s : State) : State :=
  if s.others.isEmpty then s
  else (State.arriveMany (Config.arrivals s.draw) { s with draw := s.draw + 1 }).handOver

/-- The outcome of a step from the outcome of its instruction: a stop stays as it is. -/
def outcomeAfterStep : Host.Outcome State Fault Refusal → Host.Outcome State Fault Refusal
  | .next t => .next t.afterStep
  | .fault f => .fault f
  | .refused r => .refused r

end Sys2Proof.Machine
end

