-- ==== Sys2Proof/Machine/Step.lean ====
section
/-! DEFINITION. One step of the acting agent (40_vector_store.md R55). -/

namespace Sys2Proof.Machine

/-- The acting agent fetches, decodes and runs one instruction; an agent that has ended passes (70_reset_and_hazards.md R73; log 14). -/
def step (s : State) : Host.Outcome State Fault Refusal :=
  match s.fetch with
  | .ended => outcomeAfterStep (.next s)
  | .run i => outcomeAfterStep (exec i s)
  | .fault f => raise f
  | .refuse r => refuse r

/-- `s` with the one-word program `w` (its low `nbits` bits, at most 32) loaded where the acting agent fetches next (log 8). -/
def State.withFetchWord (s : State) (nbits w : Nat) : State :=
  s.load s.cur.pc [BitVec.ofNat 32 (w % 2 ^ nbits)]

end Sys2Proof.Machine
end

