-- ==== Sys2Proof/Machine/Assembler.lean ====
section
/-! DEFINITION. The assembler's view of the two instructions: a mnemonic and three operand slots (30_encoding.md R47). -/

namespace Sys2Proof.Machine

/-- What an operand slot can hold. -/
inductive AsmOperand where
  /-- A vector register `v<n>`. -/
  | vreg (n : Nat)
  /-- A general register `r<n>`. -/
  | greg (n : Nat)
  /-- `0`: the constant zero of the RA0 slot. -/
  | zero
deriving DecidableEq, Repr

/-- The mnemonics of the page; no record form, no alias and no update form exists (30_encoding.md R47). -/
inductive Mnemonic where
  | stvxl
  | stvxl128
deriving DecidableEq, Repr

/-- One assembler line: `mnemonic VS, RA0, RB`, the slots in this order. -/
structure AsmLine where
  mnemonic : Mnemonic
  vs : AsmOperand
  ra0 : AsmOperand
  rb : AsmOperand
deriving DecidableEq, Repr

/-- The RA0 slot of a field RA: the spec writes the value 0 as `0` (30_encoding.md R47). -/
def asmRa0 (ra : GReg) : AsmOperand := if ra = 0#5 then .zero else .greg ra.toNat

/-- The assembler line of an instruction. -/
def disassemble : Instr → AsmLine
  | .stvxl vs ra rb => ⟨.stvxl, .vreg vs.toNat, asmRa0 ra, .greg rb.toNat⟩
  | .stvxl128 vs ra rb => ⟨.stvxl128, .vreg vs.toNat, asmRa0 ra, .greg rb.toNat⟩

/-- The field RA that an RA0 slot gives. Whether an assembler takes `r0` there is not stated, and the model does not (30_encoding.md R47,
91_not_in_source.md N26; log 24). -/
def assembleRa0 : AsmOperand → Option GReg
  | .zero => some 0#5
  | .greg n => if 0 < n ∧ n < 32 then some (BitVec.ofNat 5 n) else none
  | .vreg _ => none

/-- The field RB that an RB slot gives: `r0` to `r31`. -/
def assembleRb : AsmOperand → Option GReg
  | .greg n => if n < 32 then some (BitVec.ofNat 5 n) else none
  | .zero => none
  | .vreg _ => none

/-- How many vector registers a mnemonic's VS slot accepts, from `v0` on (30_encoding.md R47). -/
def Mnemonic.vsCount : Mnemonic → Nat
  | .stvxl => 32
  | .stvxl128 => 128

/-- The register number that a VS slot gives. -/
def assembleVs (m : Mnemonic) : AsmOperand → Option VReg
  | .vreg n => if n < m.vsCount then some (BitVec.ofNat 7 n) else none
  | .greg _ => none
  | .zero => none

/-- The instruction of an assembler line; `none` where a slot holds what it does not accept. -/
def assemble (l : AsmLine) : Option Instr :=
  match assembleVs l.mnemonic l.vs, assembleRa0 l.ra0, assembleRb l.rb with
  | some vs, some ra, some rb =>
    match l.mnemonic with
    | .stvxl => some (.stvxl vs ra rb)
    | .stvxl128 => some (.stvxl128 vs ra rb)
  | _, _, _ => none

/-- How an operand is spelt. -/
def AsmOperand.text : AsmOperand → String
  | .vreg n => "v" ++ toString n
  | .greg n => "r" ++ toString n
  | .zero => "0"

/-- How a mnemonic is spelt. -/
def Mnemonic.text : Mnemonic → String
  | .stvxl => "stvxl"
  | .stvxl128 => "stvxl128"

/-- How a line is spelt: operands separated by commas. -/
def AsmLine.text (l : AsmLine) : String :=
  l.mnemonic.text ++ " " ++ l.vs.text ++ ", " ++ l.ra0.text ++ ", " ++ l.rb.text

end Sys2Proof.Machine
end

