-- ==== Sys2Proof/Safety.lean ====
section
/-! DEFINITION. The launch premises, the invariant of a run, and what a finished run is, in the terms claims use. -/

namespace Sys2Proof.Machine

/-- What the spec asks of the parameters: the program's base is a multiple of 4, its words fit below 2^32 and are admitted
(70_reset_and_hazards.md R70). -/
abbrev Platform.Legal (p : Platform) : Prop :=
  p.progBase.toNat % 4 = 0 ∧ p.progEnd ≤ 2 ^ 32 ∧
    ∀ k < 4 * p.progLen, p.admits (BitVec.ofNat 32 (p.progBase.toNat + k)) = true

/-- A legal `pc`: the address of one of the program's words or the end address (70_reset_and_hazards.md R70). -/
abbrev Agent.PcLegal (p : Platform) (ag : Agent) : Prop :=
  ag.pc.toNat % 4 = 0 ∧ p.progBase.toNat ≤ ag.pc.toNat ∧ ag.pc.toNat ≤ p.progEnd

/-- A byte that a store may write: in the address space, admitted, and no byte of the program (20_memory.md R28, R32). -/
abbrev Platform.Storable (p : Platform) (a : Nat) : Prop :=
  a < 2 ^ 32 ∧ p.admits (BitVec.ofNat 32 a) = true ∧ p.inProgram a = false

/-- The order in which the reservation table lists its pairs. -/
abbrev resvLt (x y : Nat × Nat) : Prop := x.1 < y.1 ∨ x.1 = y.1 ∧ x.2 < y.2

/-- The invariant of a run: a launch state has it (70_reset_and_hazards.md R69, R70, R72) and every step keeps it. -/
structure State.Inv (s : State) : Prop where
  platform : s.platform.Legal
  /-- Memory keeps its canonical form. -/
  memWf : s.mem.wf
  /-- Memory lists nothing at an address that is not admitted. -/
  memAdmitted : ∀ c ∈ s.mem, s.platform.admits (BitVec.ofNat 32 c.1) = true
  /-- Memory holds a byte at every admitted address, the program's words among them (70_reset_and_hazards.md R69, R70); every state
  has it, by the way memory is read. -/
  memHeld : ∀ a < 2 ^ 32, s.platform.admits (BitVec.ofNat 32 a) = true → (s.byteAt a).isSome = true
  /-- Every agent stands at a program word or at the end. -/
  pcLegal : ∀ ag ∈ s.agents, ag.PcLegal s.platform
  /-- What is on its way to memory may be stored. -/
  pendingStorable : ∀ ag ∈ s.agents, ∀ c ∈ ag.pending, s.platform.Storable c.1
  /-- A single agent's stores are performed at once. -/
  singleDrained : s.others = [] → s.cur.pending = []
  /-- The reservation table keeps its canonical form. -/
  resvRising : s.resv.Pairwise resvLt
  /-- A reservation is held by an agent, on the base address of a granule. -/
  resvLegal : ∀ r ∈ s.resv, r.1 ∈ s.agents.map Agent.id ∧ r.2 % s.platform.granuleSize = 0
  /-- Without a reservation table nothing is reserved. -/
  resvUntracked : s.platform.reservationTracking = false → s.resv = []
  /-- No two agents share an identity. -/
  idsDistinct : (s.agents.map Agent.id).Nodup

/-- What an instruction needs to execute normally: exactly that none of the guards of 40_vector_store.md R55, lines 3 to 7, fires and the
vector facility is available (70_reset_and_hazards.md R72). -/
abbrev State.CanStore (s : State) (vs : VReg) (ra rb : GReg) : Prop :=
  s.platform.vectorAvailable = true ∧ s.cur.pc ≠ 0xFFFFFFFC#32 ∧
    s.cur.firstUnset (operandRegs vs ra rb) = none ∧
    s.platform.admits (s.storeBase ra rb) = true ∧
    s.platform.overlapsProgram (s.storeBase ra rb) = false

/-- A run is final when every agent has ended and no byte is on its way (70_reset_and_hazards.md R73). -/
abbrev State.Final (s : State) : Prop :=
  ∀ ag ∈ s.agents, ag.ended s.platform = true ∧ ag.pending = []

end Sys2Proof.Machine
end

