-- ==== Sys2Proof/Certificates/Slice0/Obligations.lean ====
section
/-! DEFINITION. The statements for the provers. Each docstring names the rule of spec/ it rests on. -/

open Sys2Proof Sys2Proof.Machine

/-! ## Encoding -/

/-- Decode and encode agree: no operand bit of a well-formed instruction is lost (30_encoding.md R36, R38, R43). -/
def Obligations.EncodeThenDecodeGivesTheInstruction : Prop :=
  ∀ i : Instr, i.WellFormed → decodeWord (encode i) = some i

/-- Each word that decodes has one meaning and is its encoding (30_encoding.md R43). -/
def Obligations.DecodeThenEncodeGivesTheWord : Prop :=
  ∀ (w : Word) (i : Instr), decodeWord w = some i → i.WellFormed ∧ encode i = w

/-- The decoding procedure in the spec's own match and mask form, `stvxl` first (30_encoding.md R43, with D20 and D21). -/
def Obligations.DecodeSelectsByMatchAndMask : Prop :=
  ∀ w : BitVec 32,
    decodeWord w =
      if w &&& 0xFC0007FF#32 = 0x7C0003CE#32 then
        some (.stvxl ((w >>> 21 &&& 31#32).setWidth 7) ((w >>> 16 &&& 31#32).setWidth 5) ((w >>> 11 &&& 31#32).setWidth 5))
      else if w &&& 0xFC0007F3#32 = 0x100003C3#32 then
        some (.stvxl128 (((w >>> 2 &&& 3#32) <<< 5 ||| (w >>> 21 &&& 31#32)).setWidth 7) ((w >>> 16 &&& 31#32).setWidth 5)
          ((w >>> 11 &&& 31#32).setWidth 5))
      else none

/-- The word of an instruction is the sum of the fields of its form, each at the place the field table gives it: OPCD, VS, RA, RB, XO, Rc of
form X; OPCD, VD128l, RA, RB, XO, VD128h and the fixed low bits of form VX128_1 (30_encoding.md R35, R36, R37, R38). -/
def Obligations.EncodedWordIsTheSumOfItsFields : Prop :=
  (∀ (vs : VReg) (ra rb : GReg), vs.toNat < 32 →
    (encode (.stvxl vs ra rb)).toNat =
      31 * 2 ^ 26 + vs.toNat * 2 ^ 21 + ra.toNat * 2 ^ 16 + rb.toNat * 2 ^ 11 + 487 * 2 ^ 1 + 0) ∧
  (∀ (vs : VReg) (ra rb : GReg),
    (encode (.stvxl128 vs ra rb)).toNat =
      4 * 2 ^ 26 + vs.toNat % 32 * 2 ^ 21 + ra.toNat * 2 ^ 16 + rb.toNat * 2 ^ 11 + 60 * 2 ^ 4 + vs.toNat / 32 * 2 ^ 2 + 3)

/-- VS of `stvxl` is the 5-bit number in `w{6..10}`, and the register it names is the source of the store, not its destination
(30_encoding.md R41). -/
def Obligations.StvxlVsIsAFiveBitSource : Prop :=
  ∀ (w : Word) (vs : VReg) (ra rb : GReg), decodeWord w = some (.stvxl vs ra rb) →
    vs.toNat = w.toNat / 2 ^ 21 % 32 ∧
    ∀ s : State, s.CanStore vs ra rb →
      ∃ t, exec (.stvxl vs ra rb) s = .next t ∧ t.cur.vr = s.cur.vr ∧
        ∀ k < 16, t.ownByte ((s.storeBase ra rb).toNat + k) = some (lane (s.cur.vr[w.toNat / 2 ^ 21 % 32]'(by omega)) k)

/-- VS of `stvxl128` is the 7-bit number `(w{28..29} << 5) | w{6..10}`, 0 to 127 (30_encoding.md R42). -/
def Obligations.Stvxl128VsIsTheSplitNumber : Prop :=
  ∀ (w : Word) (vs : VReg) (ra rb : GReg), decodeWord w = some (.stvxl128 vs ra rb) →
    vs.toNat = w.toNat / 2 ^ 2 % 4 * 32 + w.toNat / 2 ^ 21 % 32 ∧
    ∀ s : State, s.CanStore vs ra rb →
      ∃ t, exec (.stvxl128 vs ra rb) s = .next t ∧ t.cur.vr = s.cur.vr ∧
        ∀ k < 16, t.ownByte ((s.storeBase ra rb).toNat + k) =
          some (lane (s.cur.vr[w.toNat / 2 ^ 2 % 4 * 32 + w.toNat / 2 ^ 21 % 32]'(by omega)) k)

/-- The neighbours the spec does not decode: `stvxl` with Rc = 1, and `stvxl128` with low bits other than `11`, whatever the operands
(30_encoding.md R44, R45, by decisions D20 and D21). -/
def Obligations.RecordFormAndReservedLowBitsDoNotDecode : Prop :=
  (∀ w : Word, w &&& 0xFC0007FF#32 = 0x7C0003CF#32 → decodeWord w = none) ∧
  (∀ w : Word, w &&& 0xFC0007F0#32 = 0x100003C0#32 → w &&& 3#32 ≠ 3#32 → decodeWord w = none)

/-- Words of 95_test_vectors.md section 2: D1, D3, D6, D7, D10, D13, D14 decode, X1 to X9 do not. -/
def Obligations.SampleWordsDecodeAsListed : Prop :=
  decodeWord 0x7C0003CE#32 = some (.stvxl 0 0 0) ∧
  decodeWord 0x7CA323CE#32 = some (.stvxl 5 3 4) ∧
  decodeWord 0x7FFFFBCE#32 = some (.stvxl 31 31 31) ∧
  decodeWord 0x100003C3#32 = some (.stvxl128 0 0 0) ∧
  decodeWord 0x10002BC7#32 = some (.stvxl128 32 0 5) ∧
  decodeWord 0x108323CF#32 = some (.stvxl128 100 3 4) ∧
  decodeWord 0x13FFFBCF#32 = some (.stvxl128 127 31 31) ∧
  decodeWord 0x7C0003CF#32 = none ∧
  decodeWord 0x100003C0#32 = none ∧
  decodeWord 0x100003C1#32 = none ∧
  decodeWord 0x100003C2#32 = none ∧
  decodeWord 0x7C0001CE#32 = none ∧
  decodeWord 0x7C0007CE#32 = none ∧
  decodeWord 0x100003D3#32 = none ∧
  decodeWord 0x100007C3#32 = none ∧
  decodeWord 0x780003CE#32 = none ∧
  decodeWord 0x140003C3#32 = none ∧
  decodeWord 0x00000000#32 = none ∧
  decodeWord 0xFFFFFFFF#32 = none

/-- The decoder takes the four bytes of a word from the lowest address on, the most significant first, and leaves the bytes after
them (30_encoding.md R34, 20_memory.md R22, by decision D3). -/
def Obligations.DecodeTakesBytesBigEndian : Prop :=
  ∀ (w : Word) (rest : List Byte),
    (∀ i, decodeWord w = some i →
      decode (w.extractLsb' 24 8 :: w.extractLsb' 16 8 :: w.extractLsb' 8 8 :: w.extractLsb' 0 8 :: rest) = .ok (i, rest)) ∧
    (decodeWord w = none →
      decode (w.extractLsb' 24 8 :: w.extractLsb' 16 8 :: w.extractLsb' 8 8 :: w.extractLsb' 0 8 :: rest) =
        .error (.notInScope w))

/-- The assembler's lines and the well-formed instructions correspond one to one (30_encoding.md R47; that the RA0 slot takes `0` and not
`r0` is the model's choice, log 24). -/
def Obligations.AssemblerLinesAreTheInstructions : Prop :=
  (∀ i : Instr, i.WellFormed → assemble (disassemble i) = some i) ∧
  (∀ (l : AsmLine) (i : Instr), assemble l = some i → i.WellFormed ∧ disassemble i = l)

/-! ## Operands and the effective address -/

/-- RA = 0 is the constant zero and reads no register: whatever `r0` holds, and even when it is unset, the outcome is the same; any other
RA reads the register (30_encoding.md R39). -/
def Obligations.RaZeroIsTheConstantZero : Prop :=
  (∀ (ag : Agent) (ra : GReg), ra ≠ 0#5 → ag.ra0 ra = ag.gpr[ra.toNat]'ra.isLt) ∧
  (∀ (s : State) (rb : GReg), s.storeBase 0#5 rb = ((s.cur.gpr[rb.toNat]'rb.isLt) &&& ~~~(0xF#64)).setWidth 32) ∧
  ∀ (s : State) (vs : VReg) (rb : GReg) (i : Instr) (x : DWord),
    (i = .stvxl vs 0#5 rb ∨ i = .stvxl128 vs 0#5 rb) → rb ≠ 0#5 →
    let g := s.cur.gpr.set 0 x
    let u := RegName.gpr 0#5 :: s.cur.unset
    let s' : State := { s with cur := { s.cur with gpr := g, unset := u } }
    (∀ t, exec i s = .next t → exec i s' = .next { t with cur := { t.cur with gpr := g, unset := u } }) ∧
    (∀ f, exec i s = .fault f → exec i s' = .fault f) ∧
    (∀ r, exec i s = .refused r → exec i s' = .refused r)

/-- RB is `w{16..20}` and names a register read in full, `r0` like any other (30_encoding.md R40): whatever RA is, the store goes to the
block of RA0 plus the whole of `x[RB]`. -/
def Obligations.RbReadsItsRegisterWithNoSpecialCase : Prop :=
  (∀ (w : Word) (vs : VReg) (ra rb : GReg),
    (decodeWord w = some (.stvxl vs ra rb) ∨ decodeWord w = some (.stvxl128 vs ra rb)) → rb.toNat = w.toNat / 2 ^ 11 % 32) ∧
  (∀ (ag : Agent) (rb : GReg), ag.gprValue rb = ag.gpr[rb.toNat]'rb.isLt) ∧
  ∀ (s : State) (vs : VReg) (ra rb : GReg) (i : Instr), (i = .stvxl vs ra rb ∨ i = .stvxl128 vs ra rb) → s.CanStore vs ra rb →
    ∃ t, exec i s = .next t ∧
      ∀ k < 16, t.ownByte (((s.cur.ra0 ra).toNat + (s.cur.gpr[rb.toNat]'rb.isLt).toNat) % 2 ^ 64 / 16 * 16 % 2 ^ 32 + k) =
        some (lane (s.cur.vrValue vs) k)

/-- The effective address: the 64-bit wrap-around sum of RA0 and x[RB], its low four bits cleared, its low 32 bits kept; and the two
other forms of the rule (40_vector_store.md R48). -/
def Obligations.EffectiveAddressIsTheMaskedTruncatedSum : Prop :=
  ∀ (s : State) (ra rb : GReg),
    let a : DWord := if ra = 0#5 then 0#64 else s.cur.gpr[ra.toNat]'ra.isLt
    let b : DWord := s.cur.gpr[rb.toNat]'rb.isLt
    (s.storeBase ra rb).toNat = (a.toNat + b.toNat) % 2 ^ 64 / 16 * 16 % 2 ^ 32 ∧
    s.storeBase ra rb = ((a + b).setWidth 32 &&& 0xFFFFFFF0#32) ∧
    s.storeBase ra rb = ((a.setWidth 32 + b.setWidth 32) &&& 0xFFFFFFF0#32)

/-- Alignment is forced, not checked: the low four bits of the sum affect nothing, no outcome depends on them, and the bytes written are
those of the aligned block that holds the sum (20_memory.md R23). -/
def Obligations.LowFourBitsOfTheSumAffectNothing : Prop :=
  (∀ (s : State) (ra rb : GReg),
    let sum : Addr := (s.cur.ra0 ra + s.cur.gprValue rb).setWidth 32
    (s.storeBase ra rb).toNat % 16 = 0 ∧ (s.storeBase ra rb).toNat ≤ sum.toNat ∧
      sum.toNat < (s.storeBase ra rb).toNat + 16) ∧
  ∀ (s : State) (vs : VReg) (ra rb : GReg) (i : Instr) (g : Vector DWord 32),
    (i = .stvxl vs ra rb ∨ i = .stvxl128 vs ra rb) →
    let s' : State := { s with cur := { s.cur with gpr := g } }
    (s'.cur.ra0 ra + s'.cur.gprValue rb).toNat / 16 = (s.cur.ra0 ra + s.cur.gprValue rb).toNat / 16 →
    (∀ t, exec i s = .next t → exec i s' = .next { t with cur := { t.cur with gpr := g } }) ∧
    (∀ f, exec i s = .fault f → exec i s' = .fault f) ∧
    (∀ r, exec i s = .refused r → exec i s' = .refused r)

/-- The sixteen addresses of a store lie in one aligned block below 2^32: it never wraps to address 0 (20_memory.md R18). -/
def Obligations.StoreStaysInOneAlignedBlock : Prop :=
  ∀ (a b : DWord) (k : Nat), k < 16 →
    (effectiveAddress a b).toNat + k < 2 ^ 32 ∧
    ((effectiveAddress a b).toNat + k) / 16 = (effectiveAddress a b).toNat / 16

/-! ## The two instructions -/

/-- `stvxl` completes and stores: lane k of VS at base + k for all sixteen lanes, as one big-endian MemWrite would, nothing else in memory
changed and nothing read from it, and pc 4 larger (40_vector_store.md R49). -/
def Obligations.StvxlStoresTheSixteenLanes : Prop :=
  ∀ (s : State) (vs : VReg) (ra rb : GReg), s.CanStore vs ra rb →
    let base := (s.storeBase ra rb).toNat
    let v := s.cur.vr[vs.toNat]'vs.isLt
    ∃ t, exec (.stvxl vs ra rb) s = .next t ∧
      t.cur.pc = s.cur.pc + 4#32 ∧
      (∀ k < 16, t.ownByte (base + k) = some (v.extractLsb' (120 - 8 * k) 8)) ∧
      (∀ a, (a < base ∨ base + 16 ≤ a) → t.ownByte a = s.ownByte a) ∧
      (∀ a, t.ownMemory.read a = (s.ownMemory.writeBE base 16 v).read a) ∧
      (∀ m : Memory, ∃ u, exec (.stvxl vs ra rb) { s with mem := m } = .next u ∧
        u.cur = t.cur ∧ u.resv = t.resv ∧ ∀ k < 16, u.ownByte (base + k) = t.ownByte (base + k))

/-- `stvxl128` completes and stores: the same data effect for all of `v0` to `v127` (40_vector_store.md R49). -/
def Obligations.Stvxl128StoresTheSixteenLanes : Prop :=
  ∀ (s : State) (vs : VReg) (ra rb : GReg), s.CanStore vs ra rb →
    let base := (s.storeBase ra rb).toNat
    let v := s.cur.vr[vs.toNat]'vs.isLt
    ∃ t, exec (.stvxl128 vs ra rb) s = .next t ∧
      t.cur.pc = s.cur.pc + 4#32 ∧
      (∀ k < 16, t.ownByte (base + k) = some (v.extractLsb' (120 - 8 * k) 8)) ∧
      (∀ a, (a < base ∨ base + 16 ≤ a) → t.ownByte a = s.ownByte a) ∧
      (∀ a, t.ownMemory.read a = (s.ownMemory.writeBE base 16 v).read a) ∧
      (∀ m : Memory, ∃ u, exec (.stvxl128 vs ra rb) { s with mem := m } = .next u ∧
        u.cur = t.cur ∧ u.resv = t.resv ∧ ∀ k < 16, u.ownByte (base + k) = t.ownByte (base + k))

/-- The frame of both instructions: no register of any agent is written (RA neither: no update form), no mark, no parameter; the
reservation table only loses pairs; every byte outside base … base + 15 is unchanged, in the acting agent's view and, where no
older store of it is on its way, in the shared memory (40_vector_store.md R52; there is no flag and no other register, 10_state.md
R11, R12). -/
def Obligations.StoreChangesOnlyBytesPcAndReservations : Prop :=
  ∀ (s t : State) (vs : VReg) (ra rb : GReg) (i : Instr), (i = .stvxl vs ra rb ∨ i = .stvxl128 vs ra rb) →
    exec i s = .next t →
    t.cur.gpr = s.cur.gpr ∧ t.cur.vr = s.cur.vr ∧ t.cur.unset = s.cur.unset ∧ t.cur.id = s.cur.id ∧
    t.others = s.others ∧ t.platform = s.platform ∧ t.resv.Sublist s.resv ∧
    ∀ a, (a < (s.storeBase ra rb).toNat ∨ (s.storeBase ra rb).toNat + 16 ≤ a) →
      t.ownByte a = s.ownByte a ∧ (s.cur.pending = [] → t.mem.read a = s.mem.read a)

/-- With one agent the store is one big-endian MemWrite of 16 bytes, done when the step ends (20_memory.md R26, R21). -/
def Obligations.SingleAgentStoreIsOneMemWrite : Prop :=
  ∀ (s : State) (vs : VReg) (ra rb : GReg) (i : Instr), (i = .stvxl vs ra rb ∨ i = .stvxl128 vs ra rb) →
    s.others = [] → s.cur.pending = [] → s.CanStore vs ra rb →
    ∃ t, exec i s = .next t ∧ t.cur.pending = [] ∧
      t.mem = s.mem.writeBE (s.storeBase ra rb).toNat 16 (s.cur.vrValue vs)

/-- With several agents the store is sixteen one-byte writes that have yet to arrive in the shared memory, behind those of older stores
(20_memory.md R25, R26; that they may arrive after the step is the model's choice, log 12). -/
def Obligations.StoreAmongSeveralAgentsIsSixteenByteWrites : Prop :=
  ∀ (s : State) (vs : VReg) (ra rb : GReg) (i : Instr), (i = .stvxl vs ra rb ∨ i = .stvxl128 vs ra rb) →
    s.others ≠ [] → s.CanStore vs ra rb →
    ∃ t ws, exec i s = .next t ∧ t.mem = s.mem ∧ t.cur.pending = s.cur.pending ++ ws ∧ ws.length = 16 ∧
      ∀ k < 16, ws[k]? = some ((s.storeBase ra rb).toNat + k, (s.cur.vrValue vs).extractLsb' (120 - 8 * k) 8)

/-- Reservations: a store removes every other agent's pair on the stored granule, keeps every pair on another granule, makes none, and
leaves the storing agent's own pair there or not as a free value says; the bytes stored play no part (20_memory.md R30, by
decisions D12 and D13). -/
def Obligations.StoreClearsOtherAgentsReservationsOnItsGranule : Prop :=
  ∀ (s : State) (vs : VReg) (ra rb : GReg) (i : Instr), (i = .stvxl vs ra rb ∨ i = .stvxl128 vs ra rb) →
    s.CanStore vs ra rb → s.platform.reservationTracking = true →
    let g := (s.storeBase ra rb).toNat / (16 * 2 ^ s.platform.granuleBlocksLog2) * (16 * 2 ^ s.platform.granuleBlocksLog2)
    ∃ t, exec i s = .next t ∧
      (∀ r ∈ t.resv, r ∈ s.resv) ∧
      (∀ r ∈ s.resv, r.2 ≠ g → r ∈ t.resv) ∧
      (∀ r ∈ s.resv, r.2 = g → r.1 ≠ s.cur.id → r ∉ t.resv)

/-- Without a reservation table nothing is cleared, and the store is done all the same (20_memory.md R30, 10_state.md R14). -/
def Obligations.WithoutTrackingReservationsStay : Prop :=
  ∀ (s : State) (vs : VReg) (ra rb : GReg) (i : Instr), (i = .stvxl vs ra rb ∨ i = .stvxl128 vs ra rb) →
    s.CanStore vs ra rb → s.platform.reservationTracking = false →
    ∃ t, exec i s = .next t ∧ t.resv = s.resv ∧
      ∀ k < 16, t.ownByte ((s.storeBase ra rb).toNat + k) = some (lane (s.cur.vrValue vs) k)

/-- For `v0` to `v31` the two encodings with the same operands have the same effect in every state (40_vector_store.md R51). -/
def Obligations.BothEncodingsOfALowRegisterHaveOneEffect : Prop :=
  ∀ (vs ra rb : BitVec 5) (s : State),
    ∃ i j,
      decodeWord (0x7C0003CE#32 ||| vs.setWidth 32 <<< 21 ||| ra.setWidth 32 <<< 16 ||| rb.setWidth 32 <<< 11) = some i ∧
      decodeWord (0x100003C3#32 ||| vs.setWidth 32 <<< 21 ||| ra.setWidth 32 <<< 16 ||| rb.setWidth 32 <<< 11) = some j ∧
      i ≠ j ∧ exec i s = exec j s

/-- Two stores of one agent to one block take effect in program order: the later one's sixteen bytes stand, and nothing outside the block
changed (20_memory.md R29 item 1, by decision D10; 40_vector_store.md R56 item 11). -/
def Obligations.LaterStoreToABlockWins : Prop :=
  ∀ (s t u : State) (i j : Instr) (vs vs' : VReg) (ra rb ra' rb' : GReg),
    (i = .stvxl vs ra rb ∨ i = .stvxl128 vs ra rb) → (j = .stvxl vs' ra' rb' ∨ j = .stvxl128 vs' ra' rb') →
    s.storeBase ra' rb' = s.storeBase ra rb → exec i s = .next t → exec j t = .next u →
    (∀ k < 16, u.ownByte ((s.storeBase ra rb).toNat + k) = some (lane (s.cur.vrValue vs') k)) ∧
    ∀ a, (a < (s.storeBase ra rb).toNat ∨ (s.storeBase ra rb).toNat + 16 ≤ a) → u.ownByte a = s.ownByte a

/-! ## What stops an instruction -/

/-- The guards of the store in their order (40_vector_store.md R55 lines 3 to 7, 60_exceptions.md R63, by decision D22; the first, the launch
premise VECTOR_AVAILABLE, is the model's, log 9). -/
def Obligations.StoreGuardsStopInTheirOrder : Prop :=
  ∀ (s : State) (vs : VReg) (ra rb : GReg) (i : Instr), (i = .stvxl vs ra rb ∨ i = .stvxl128 vs ra rb) →
    (s.platform.vectorAvailable = false → exec i s = .refused .vectorUnavailable) ∧
    (s.platform.vectorAvailable = true →
      (s.cur.pc = 0xFFFFFFFC#32 → exec i s = .refused .pcOverflow) ∧
      (s.cur.pc ≠ 0xFFFFFFFC#32 → s.cur.firstUnset (operandRegs vs ra rb) = none →
        (s.platform.admits (s.storeBase ra rb) = false → exec i s = .fault (.storeNotAdmitted (s.storeBase ra rb))) ∧
        (s.platform.admits (s.storeBase ra rb) = true → ∀ a, (s.storeBase ra rb).toNat ≤ a →
          a < (s.storeBase ra rb).toNat + 16 → s.platform.progBase.toNat ≤ a →
          a < s.platform.progBase.toNat + 4 * s.platform.progLen → exec i s = .refused .storeIntoProgramText)))

/-- An operand register that the launch state leaves unset faults when it is read: RA first if its field is not 0, then RB, then VS
(70_reset_and_hazards.md R71, 60_exceptions.md R63, by decisions D17 and D22). -/
def Obligations.FirstUnsetOperandFaults : Prop :=
  ∀ (s : State) (vs : VReg) (ra rb : GReg) (i : Instr), (i = .stvxl vs ra rb ∨ i = .stvxl128 vs ra rb) →
    s.platform.vectorAvailable = true → s.cur.pc ≠ 0xFFFFFFFC#32 →
    (ra ≠ 0#5 → RegName.gpr ra ∈ s.cur.unset → exec i s = .fault (.unsetRegister (.gpr ra))) ∧
    ((ra = 0#5 ∨ RegName.gpr ra ∉ s.cur.unset) → RegName.gpr rb ∈ s.cur.unset →
      exec i s = .fault (.unsetRegister (.gpr rb))) ∧
    ((ra = 0#5 ∨ RegName.gpr ra ∉ s.cur.unset) → RegName.gpr rb ∉ s.cur.unset → RegName.vr vs ∈ s.cur.unset →
      exec i s = .fault (.unsetRegister (.vr vs)))

/-- An instruction completes exactly when no guard fires: it has no other exception (60_exceptions.md R59, 40_vector_store.md R55). That it
never completes without the vector facility is the model's choice (log 9): the spec makes VECTOR_AVAILABLE a launch premise and says
nothing of a run without it (60_exceptions.md R61). -/
def Obligations.InstructionCompletesExactlyWhenNoGuardFires : Prop :=
  ∀ (s : State) (vs : VReg) (ra rb : GReg) (i : Instr), (i = .stvxl vs ra rb ∨ i = .stvxl128 vs ra rb) →
    ((∃ t, exec i s = .next t) ↔
      s.platform.vectorAvailable = true ∧ s.cur.pc ≠ 0xFFFFFFFC#32 ∧
      (ra = 0#5 ∨ RegName.gpr ra ∉ s.cur.unset) ∧ RegName.gpr rb ∉ s.cur.unset ∧ RegName.vr vs ∉ s.cur.unset ∧
      s.platform.admits (s.storeBase ra rb) = true ∧
      ∀ a, (s.storeBase ra rb).toNat ≤ a → a < (s.storeBase ra rb).toNat + 16 →
        ¬(s.platform.progBase.toNat ≤ a ∧ a < s.platform.progBase.toNat + 4 * s.platform.progLen))

/-! ## The step -/

/-- The guards of the fetch in their order: a misaligned pc, then a pc that is neither a program word's address nor the end, then a word
out of scope (40_vector_store.md R55 lines 1 and 2, 60_exceptions.md R63, by decisions D4, D18 and D20). -/
def Obligations.FetchGuardsStopInTheirOrder : Prop :=
  ∀ s : State,
    let first := s.platform.progBase.toNat
    let last := s.platform.progBase.toNat + 4 * s.platform.progLen
    (s.cur.pc.toNat % 4 ≠ 0 → step s = .refused .pcMisaligned) ∧
    (s.cur.pc.toNat % 4 = 0 → (s.cur.pc.toNat < first ∨ last < s.cur.pc.toNat) → step s = .refused .fetchNotAdmitted) ∧
    (s.cur.pc.toNat % 4 = 0 → first ≤ s.cur.pc.toNat → s.cur.pc.toNat < last →
      ∀ b0 b1 b2 b3 : Byte, s.byteAt s.cur.pc.toNat = some b0 → s.byteAt (s.cur.pc.toNat + 1) = some b1 →
        s.byteAt (s.cur.pc.toNat + 2) = some b2 → s.byteAt (s.cur.pc.toNat + 3) = some b3 →
        decodeWord (wordOfBytes b0 b1 b2 b3) = none → step s = .refused (.notInScope (wordOfBytes b0 b1 b2 b3)))

/-- A step runs the decoded instruction: where the four bytes at pc, most significant first, decode to `i`, the step is exec of `i`, and then
what happens between steps; with one agent that is nothing (30_encoding.md R34, 20_memory.md R22, 40_vector_store.md R55). -/
def Obligations.StepRunsTheDecodedInstruction : Prop :=
  ∀ (s : State) (b0 b1 b2 b3 : Byte) (i : Instr),
    s.cur.pc.toNat % 4 = 0 → s.platform.progBase.toNat ≤ s.cur.pc.toNat →
    s.cur.pc.toNat < s.platform.progBase.toNat + 4 * s.platform.progLen →
    s.byteAt s.cur.pc.toNat = some b0 → s.byteAt (s.cur.pc.toNat + 1) = some b1 →
    s.byteAt (s.cur.pc.toNat + 2) = some b2 → s.byteAt (s.cur.pc.toNat + 3) = some b3 →
    decodeWord (wordOfBytes b0 b1 b2 b3) = some i →
    step s = outcomeAfterStep (exec i s) ∧ (s.others = [] → step s = exec i s)

/-- An agent at the end address takes no further step: it passes, and with one agent the state stays as it is
(70_reset_and_hazards.md R73, by decision D19; that it passes is the model's choice, log 14). -/
def Obligations.EndedAgentTakesNoStep : Prop :=
  ∀ s : State, s.cur.pc.toNat % 4 = 0 → s.cur.pc.toNat = s.platform.progBase.toNat + 4 * s.platform.progLen →
    step s = .next s.afterStep ∧ (s.others = [] → step s = .next s)

/-- A one-word program placed where the acting agent fetches is what the next step runs (70_reset_and_hazards.md R70, by decision D18; log
8). -/
def Obligations.PlacedWordIsWhatTheNextStepRuns : Prop :=
  ∀ (s : State) (nbits w : Nat) (i : Instr), s.cur.pc.toNat % 4 = 0 → decodeTableWord nbits w = some i →
    step (s.withFetchWord nbits w) = outcomeAfterStep (exec i (s.withFetchWord nbits w))

/-! ## Memory -/

/-- MemWrite puts the most significant byte at the lowest address and changes no other byte, and MemRead is its inverse: it gives the value
whose bytes stand there in that order, and where the platform backs the addresses it reads back what was written (20_memory.md
R20). -/
def Obligations.MemWriteAndMemReadAreBigEndianInverses : Prop :=
  ∀ (p : Platform) (m : Memory) (addr n : Nat) (val : BitVec (8 * n)), 1 ≤ n → addr + n - 1 ≤ 0xFFFFFFFF →
    (∀ k < n, (m.writeBE addr n val).read (addr + k) = val.extractLsb' (8 * (n - k - 1)) 8) ∧
    (∀ a, (a < addr ∨ addr + n ≤ a) → (m.writeBE addr n val).read a = m.read a) ∧
    ((∀ k < n, p.admits (BitVec.ofNat 32 (addr + k)) = true) → readBE (p.view (m.writeBE addr n val)) addr n = some val) ∧
    (readBE (p.view m) addr n = some val ↔ ∀ k < n, p.view m (addr + k) = some (val.extractLsb' (8 * (n - k - 1)) 8))

/-- The stored bytes seen through other widths: the words, halfwords and doublewords of the block, and the whole of it, are the register's
bits in order (20_memory.md R21). -/
def Obligations.StoredBlockReadsAsTheRegisterAtEveryWidth : Prop :=
  ∀ (s t : State) (vs : VReg) (ra rb : GReg) (i : Instr), (i = .stvxl vs ra rb ∨ i = .stvxl128 vs ra rb) →
    exec i s = .next t →
    let base := (s.storeBase ra rb).toNat
    let v := s.cur.vrValue vs
    t.ownRead base 16 = some v ∧
    (∀ j < 2, t.ownRead (base + 8 * j) 8 = some (v.extractLsb' (64 - 64 * j) 64)) ∧
    (∀ j < 4, t.ownRead (base + 4 * j) 4 = some (v.extractLsb' (96 - 32 * j) 32)) ∧
    (∀ j < 8, t.ownRead (base + 2 * j) 2 = some (v.extractLsb' (112 - 16 * j) 16))

/-- `Admit` is constant on every aligned 16-byte block, so that no store is half admitted (20_memory.md R28, by decision D8). -/
def Obligations.AdmitIsConstantOnAlignedBlocks : Prop :=
  ∀ (p : Platform) (a b : Addr), a.toNat / 16 = b.toNat / 16 → p.admits a = p.admits b

/-- Memory holds a byte for every admitted address and nothing elsewhere, in the shared memory and in the acting agent's view, in every
state (70_reset_and_hazards.md R69, 10_state.md R17). -/
def Obligations.MemoryHoldsAByteExactlyWhereAdmitted : Prop :=
  ∀ (s : State) (a : Nat),
    ((∃ b, s.byteAt a = some b) ↔ a < 2 ^ 32 ∧ s.platform.admits (BitVec.ofNat 32 a) = true) ∧
    ((∃ b, s.ownByte a = some b) ↔ a < 2 ^ 32 ∧ s.platform.admits (BitVec.ofNat 32 a) = true)

/-- Every choice of a byte for every admitted address is the memory of a state, and of one only: the launch state's memory is any
(70_reset_and_hazards.md R69, 10_state.md R17, by decision D17). -/
def Obligations.EveryLaunchMemoryIsOneState : Prop :=
  ∀ (p : Platform) (bytes : Nat → Byte),
    ∃! m : Memory, m.wf ∧ (∀ c ∈ m, p.admits (BitVec.ofNat 32 c.1) = true) ∧
      ∀ a < 2 ^ 32, p.view m a = if p.admits (BitVec.ofNat 32 a) = true then some (bytes a) else none

/-! ## The whole machine -/

/-- The state after reset meets the invariant. -/
def Obligations.ResetMeetsTheRunInvariant : Prop := State.reset.Inv

/-- What reset leaves. The spec has no reset (10_state.md R17, 70_reset_and_hazards.md R69): every value here is the model's choice, named
in log 1 to log 10 and, for the pending writes, log 12. -/
def Obligations.ResetLeavesTheLoggedValues : Prop :=
  (∀ r : GReg, State.reset.cur.gprValue r = 0#64) ∧ (∀ r : VReg, State.reset.cur.vrValue r = 0#128) ∧
  State.reset.cur.unset = [] ∧ State.reset.cur.pc = 0x00010000#32 ∧ State.reset.cur.id = 0 ∧ State.reset.cur.pending = [] ∧
  State.reset.others = [] ∧ State.reset.mem = [] ∧ (∀ a < 2 ^ 32, State.reset.ownByte a = some 0x00#8) ∧ State.reset.resv = [] ∧
  (∀ a, State.reset.platform.admits a = true) ∧ State.reset.platform.reservationTracking = true ∧
  State.reset.platform.granuleSize = 128 ∧ State.reset.platform.progBase = 0x00010000#32 ∧ State.reset.platform.progLen = 0 ∧
  State.reset.platform.vectorAvailable = true ∧ State.reset.draw = 0

/-- The invariant of a run, kept by every step of any number of agents from every state that has it: memory in canonical form, with a byte for
every admitted address and nothing listed elsewhere, every pc a legal address, only storable bytes on their way, reservations in canonical form
(70_reset_and_hazards.md R69, R70, R72; 20_memory.md R24, R28, R32). -/
def Obligations.EveryStepKeepsTheRunInvariant : Prop :=
  ∀ s t : State, s.Inv → step s = .next t → t.Inv

/-- No step changes the program's words, and a byte that a step does change is admitted, in the address space and no byte of the program
(20_memory.md R28, R32, by decisions D8 and D15). -/
def Obligations.OnlyStorableBytesEverChange : Prop :=
  ∀ s t : State, s.Inv → step s = .next t →
    (∀ a, s.platform.inProgram a = true → t.mem.read a = s.mem.read a) ∧
    ∀ a, t.mem.read a ≠ s.mem.read a → s.platform.Storable a

/-- No step writes a register: the agents after a step are those before it, in some order, each with its identity, its general and vector
registers and its unset marks (10_state.md R7, R8; 40_vector_store.md R52). -/
def Obligations.NoStepWritesARegister : Prop :=
  ∀ s t : State, step s = .next t →
    (t.agents.map fun ag => (ag.id, ag.gpr, ag.vr, ag.unset)).Perm (s.agents.map fun ag => (ag.id, ag.gpr, ag.vr, ag.unset))

/-- No step changes the platform's parameters or the number of agents (10_state.md R16, 60_exceptions.md R67). -/
def Obligations.NoStepChangesTheParameters : Prop :=
  ∀ s t : State, step s = .next t → t.platform = s.platform ∧ t.others.length = s.others.length

/-- No step makes a reservation (20_memory.md R30), and without tracking none goes. -/
def Obligations.NoStepMakesAReservation : Prop :=
  ∀ s t : State, step s = .next t →
    t.resv.Sublist s.resv ∧ (s.platform.reservationTracking = false → t.resv = s.resv)

/-- Control only falls through: in a step every agent's pc stays, but for the acting one's, which moves to the next word unless that agent
has ended (10_state.md R10, 40_vector_store.md R53; 70_reset_and_hazards.md R73, by decision D19; that a step of an ended agent
answers a next state, with its pc kept, is the model's choice, log 14). -/
def Obligations.StepMovesOnlyTheActingAgentsPcByFour : Prop :=
  ∀ s t : State, step s = .next t →
    (t.agents.map fun ag => (ag.id, ag.pc)).Perm
      ((s.cur.id, if s.cur.ended s.platform then s.cur.pc else s.cur.pc + 4#32) :: s.others.map fun ag => (ag.id, ag.pc))

/-- In a run from a legal launch no fetch is refused for its pc and none meets an address without memory (70_reset_and_hazards.md R70, by
decision D18); what can still stop a step for its pc is only the store's own guard at 0xFFFFFFFC, where a program that ends at 2^32
has its last word (40_vector_store.md R53, by decision D2). -/
def Obligations.LegalPcsAreAlwaysFetchable : Prop :=
  ∀ s : State, s.Inv →
    step s ≠ .refused .pcMisaligned ∧ step s ≠ .refused .fetchNotAdmitted ∧ (∀ a, step s ≠ .fault (.unsetProgramByte a)) ∧
    (step s = .refused .pcOverflow → s.cur.pc = 0xFFFFFFFC#32)

/-- The launch premises are enough for a step: where the invariant holds, the fetched word is an instruction and no guard of it fires, the
step is taken, whatever the other agents and their bytes do (70_reset_and_hazards.md R72). -/
def Obligations.LaunchPremisesSufficeForAStep : Prop :=
  ∀ (s : State) (w : Word) (vs : VReg) (ra rb : GReg), s.Inv → s.cur.pc.toNat ≠ s.platform.progEnd →
    readBE s.byteAt s.cur.pc.toNat 4 = some w →
    (decodeWord w = some (.stvxl vs ra rb) ∨ decodeWord w = some (.stvxl128 vs ra rb)) → s.CanStore vs ra rb →
    ∃ t, step s = .next t

/-- A single agent whose launch premises hold for every word still ahead of it reaches the end address in exactly one step a word, and the run
is then final (70_reset_and_hazards.md R72, R73; the bound below 2^32 is that of R53: no step at 0xFFFFFFFC). -/
def Obligations.LaunchPremisesReachTheEnd : Prop :=
  ∀ s : State, s.Inv → s.others = [] → s.platform.vectorAvailable = true → s.platform.progEnd < 2 ^ 32 →
    (∀ a, s.cur.pc.toNat ≤ a → a < s.platform.progEnd → a % 4 = 0 →
      ∃ (w : Word) (vs : VReg) (ra rb : GReg), readBE s.byteAt a 4 = some w ∧
        (decodeWord w = some (.stvxl vs ra rb) ∨ decodeWord w = some (.stvxl128 vs ra rb)) ∧
        s.cur.firstUnset (operandRegs vs ra rb) = none ∧ s.platform.admits (s.storeBase ra rb) = true ∧
        s.platform.overlapsProgram (s.storeBase ra rb) = false) →
    ∃ t, Host.Core.run Sys2Proof.core ((s.platform.progEnd - s.cur.pc.toNat) / 4) s = .next t ∧
      t.cur.pc.toNat = s.platform.progEnd ∧ t.Final

/-- A final run stays final: memory and reservations, which the host reads back, no longer change (70_reset_and_hazards.md R73, by decision
D19; that an ended agent's step answers a next state, and that a final run has no byte pending, are the model's choices, log 14). -/
def Obligations.FinalRunsStayAsTheyAre : Prop :=
  ∀ s : State, s.Inv → s.Final →
    ∃ t, step s = .next t ∧ t.Final ∧ t.mem = s.mem ∧ t.resv = s.resv

/-! ## Several agents -/

/-- An arriving byte changes nothing in the view of the agent whose store it is (20_memory.md R29 item 1, by decision D10). -/
def Obligations.ArrivalsKeepTheStoringAgentsView : Prop :=
  ∀ (ag : Agent) (m : Memory) (pick a : Nat),
    let r := ag.arrive m pick
    (r.2.writeAll r.1.pending).read a = (m.writeAll ag.pending).read a

/-- In whatever order a store's bytes arrive, undisturbed, the shared memory ends as the store of a single agent leaves it
(20_memory.md R25, R26, R29; that the bytes wait as pending writes is the model's choice, log 12, and that a single agent's store is
performed at once is deduced from R26, log 13). -/
def Obligations.ArrivalsInAnyOrderEndAsTheAtomicStore : Prop :=
  ∀ (s t u : State) (i : Instr) (picks : List Nat),
    s.mem.wf → (∀ c ∈ s.cur.pending, c.1 < 2 ^ 32) → s.others ≠ [] →
    exec i s = .next t → exec i { s with others := [] } = .next u → picks.length = t.cur.pending.length →
    let r := picks.foldl (fun r pick => Agent.arrive r.1 r.2 pick) (t.cur, t.mem)
    r.1.pending = [] ∧ r.2 = u.mem
end

