-- ==== Sys2Proof/Laws/Memory.lean ====
section
/-! SUPPORT. Lemmas about memory: a byte reads as it was last written, and every operation keeps the canonical form. -/

namespace Sys2Proof.Machine

/-- Past the entries up to `a`, an address up to `a` reads as unlisted and any other as before. -/
theorem Memory.read_dropWhile (m : Memory) (a x : Nat) :
    Memory.read (m.dropWhile fun c => decide (c.1 ≤ a)) x = if x ≤ a then Memory.unlisted else m.read x := by
  induction m with
  | nil => simp [Memory.read]
  | cons c m ih =>
    obtain ⟨k, c⟩ := c
    rw [List.dropWhile_cons]
    split
    · next hk =>
      have hk : k ≤ a := by simpa using hk
      rw [ih, Memory.read]
      split
      · rfl
      · rw [if_neg (by omega), if_neg (by omega)]
    · next hk =>
      have hk : a < k := by simpa using hk
      split
      · rw [Memory.read, if_pos (by omega)]
      · rfl

/-- Writing at or before the first entry, or after it. -/
theorem Memory.write_cons (k : Nat) (c : Byte) (m : Memory) (a : Nat) (b : Byte) :
    Memory.write ((k, c) :: m) a b =
      if k < a then (k, c) :: m.write a b
      else (if b = Memory.unlisted then [] else [(a, b)]) ++ List.dropWhile (fun c => decide (c.1 ≤ a)) ((k, c) :: m) := by
  split
  · next h => simp [Memory.write, h, Nat.le_of_lt h]
  · next h => simp [Memory.write, h]

/-- The byte written, in front of entries above it, reads as itself. -/
theorem Memory.read_head_append (m : Memory) (a x : Nat) (b : Byte) :
    Memory.read ((if b = Memory.unlisted then [] else [(a, b)]) ++ m.dropWhile fun c => decide (c.1 ≤ a)) x =
      if x = a then b else if x < a then Memory.unlisted else m.read x := by
  have tail := Memory.read_dropWhile m a x
  split
  · next h =>
    rw [List.nil_append, tail]
    split
    · next hx => rw [h]; split <;> [rfl; rw [if_pos (by omega)]]
    · next hx => rw [if_neg (by omega), if_neg (by omega)]
  · rw [List.singleton_append, Memory.read, tail]
    rcases Nat.lt_trichotomy x a with hx | hx | hx
    · rw [if_pos hx, if_neg (by omega), if_pos hx]
    · rw [if_neg (by omega), if_pos hx, if_pos hx]
    · rw [if_neg (by omega), if_neg (by omega), if_neg (by omega), if_neg (by omega), if_neg (by omega)]

/-- A byte reads as it was last written, and a write leaves every other byte alone. -/
theorem Memory.read_write (m : Memory) (a x : Nat) (b : Byte) :
    (m.write a b).read x = if x = a then b else m.read x := by
  induction m with
  | nil =>
    have := Memory.read_head_append [] a x b
    simpa [Memory.write, Memory.read] using this
  | cons c m ih =>
    obtain ⟨k, c⟩ := c
    rw [Memory.write_cons]
    split
    · next hk =>
      rw [Memory.read, Memory.read, ih]
      repeat' split
      all_goals first | rfl | omega
    · next hk =>
      rw [Memory.read_head_append]
      split
      · rfl
      · split
        · rw [Memory.read, if_pos (by omega)]
        · rfl

theorem Memory.read_write_same (m : Memory) (a : Nat) (b : Byte) : (m.write a b).read a = b := by
  rw [Memory.read_write, if_pos rfl]

theorem Memory.read_write_other (m : Memory) (a x : Nat) (b : Byte) (h : x ≠ a) : (m.write a b).read x = m.read x := by
  rw [Memory.read_write, if_neg h]

/-- A byte listed after a write was listed before, or is the byte written and not what an unlisted one reads as. -/
theorem Memory.mem_of_mem_write {m : Memory} {a : Nat} {b : Byte} {c : Host.Cell} (h : c ∈ m.write a b) :
    (c = (a, b) ∧ b ≠ Memory.unlisted) ∨ c ∈ m := by
  rw [Memory.write, List.mem_append, List.mem_append] at h
  rcases h with (h | h) | h
  · exact .inr ((List.takeWhile_sublist _).subset h)
  · split at h
    · cases h
    · next hb => exact .inl ⟨List.mem_singleton.1 h, hb⟩
  · exact .inr ((List.dropWhile_sublist _).subset h)

theorem Memory.write_rising {m : Memory} (a : Nat) (b : Byte) (h : m.Pairwise (fun c d => c.1 < d.1)) :
    (m.write a b).Pairwise (fun c d => c.1 < d.1) := by
  induction m with
  | nil =>
    simp only [Memory.write, List.takeWhile_nil, List.dropWhile_nil, List.nil_append, List.append_nil]
    split <;> simp
  | cons d m ih =>
    obtain ⟨k, d⟩ := d
    obtain ⟨hd, hm⟩ := List.pairwise_cons.1 h
    rw [Memory.write_cons]
    split
    · next hk =>
      refine List.pairwise_cons.2 ⟨fun c hc => ?_, ih hm⟩
      rcases Memory.mem_of_mem_write hc with ⟨rfl, -⟩ | hc
      · exact hk
      · exact hd c hc
    · next hk =>
      have rest := h.sublist (List.dropWhile_sublist fun c : Host.Cell => decide (c.1 ≤ a))
      split
      · exact rest
      · refine List.pairwise_cons.2 ⟨fun c hc => ?_, rest⟩
        replace hc : c ∈ List.dropWhile _ ((k, d) :: m) := hc
        rw [List.dropWhile_cons] at hc
        split at hc
        · next ha =>
          have ha : k ≤ a := by simpa using ha
          have := hd c ((List.dropWhile_sublist _).subset hc)
          simp only; omega
        · next ha =>
          have ha : a < k := by simpa using ha
          rcases List.mem_cons.1 hc with rfl | hc
          · exact ha
          · exact Nat.lt_trans ha (hd c hc)

/-- A write inside the address space keeps the canonical form. -/
theorem Memory.write_wf {m : Memory} {a : Nat} (b : Byte) (h : m.wf) (ha : a < 2 ^ 32) : (m.write a b).wf := by
  refine ⟨Memory.write_rising a b h.1, fun c hc => ?_⟩
  rcases Memory.mem_of_mem_write hc with ⟨rfl, hb⟩ | hc
  · exact ⟨ha, hb⟩
  · exact h.2 c hc

@[simp] theorem Memory.writeAll_nil (m : Memory) : m.writeAll [] = m := rfl

@[simp] theorem Memory.writeAll_cons (m : Memory) (w : Host.Cell) (ws : List Host.Cell) :
    m.writeAll (w :: ws) = (m.write w.1 w.2).writeAll ws := rfl

theorem Memory.writeAll_append (m : Memory) (us ws : List Host.Cell) :
    m.writeAll (us ++ ws) = (m.writeAll us).writeAll ws := List.foldl_append

/-- Writes inside the address space keep the canonical form. -/
theorem Memory.writeAll_wf {m : Memory} {ws : List Host.Cell} (h : m.wf) (hw : ∀ w ∈ ws, w.1 < 2 ^ 32) :
    (m.writeAll ws).wf := by
  induction ws generalizing m with
  | nil => exact h
  | cons w ws ih =>
    exact ih (Memory.write_wf w.2 h (hw w List.mem_cons_self)) fun x hx => hw x (List.mem_cons_of_mem _ hx)

theorem Memory.writeBE_wf {m : Memory} {addr n : Nat} (val : BitVec (8 * n)) (h : m.wf) (ha : addr + n ≤ 2 ^ 32) :
    (m.writeBE addr n val).wf := by
  refine Memory.writeAll_wf h fun w hw => ?_
  obtain ⟨k, hk, rfl⟩ := List.mem_map.1 hw
  have := List.mem_range.1 hk
  show addr + k < 2 ^ 32
  omega

theorem Memory.mem_of_mem_writeAll {m : Memory} {ws : List Host.Cell} {c : Host.Cell} (h : c ∈ m.writeAll ws) :
    c ∈ ws ∨ c ∈ m := by
  induction ws generalizing m with
  | nil => exact .inr h
  | cons w ws ih =>
    rcases ih h with h | h
    · exact .inl (List.mem_cons_of_mem _ h)
    · rcases Memory.mem_of_mem_write h with ⟨rfl, -⟩ | h
      · exact .inl List.mem_cons_self
      · exact .inr h

theorem Memory.read_writeAll_other {ws : List Host.Cell} {a : Nat} (m : Memory) (h : ∀ w ∈ ws, w.1 ≠ a) :
    (m.writeAll ws).read a = m.read a := by
  induction ws generalizing m with
  | nil => rfl
  | cons w ws ih =>
    rw [Memory.writeAll_cons, ih _ fun x hx => h x (List.mem_cons_of_mem _ hx),
      Memory.read_write_other _ _ _ _ (h w List.mem_cons_self).symm]

/-- What a byte reads as after writes depends on memory only through what it read as before. -/
theorem Memory.read_writeAll_congr {m n : Memory} {a : Nat} (ws : List Host.Cell) (h : m.read a = n.read a) :
    (m.writeAll ws).read a = (n.writeAll ws).read a := by
  induction ws generalizing m n with
  | nil => exact h
  | cons w ws ih => exact ih (by simp only [Memory.read_write, h])

/-- Writes to rising addresses, one byte each: byte `k` reads as the `k`-th byte written. -/
theorem Memory.read_writeAll_range {n k : Nat} (m : Memory) (addr : Nat) (f : Nat → Byte) (h : k < n) :
    (m.writeAll ((List.range n).map fun j => (addr + j, f j))).read (addr + k) = f k := by
  induction n generalizing m with
  | zero => omega
  | succ n ih =>
    rw [List.range_succ, List.map_append, Memory.writeAll_append]
    simp only [List.map_cons, List.map_nil, Memory.writeAll_cons, Memory.writeAll_nil, Memory.read_write]
    rcases Nat.lt_succ_iff_lt_or_eq.1 h with hk | rfl
    · rw [if_neg (by omega), ih m hk]
    · simp

theorem Memory.read_laneWrites {k : Nat} (m : Memory) (base : Addr) (v : VWord) (h : k < 16) :
    (m.writeAll (laneWrites base v)).read (base.toNat + k) = lane v k :=
  Memory.read_writeAll_range m base.toNat (lane v) h

theorem Memory.read_laneWrites_other {a : Nat} (m : Memory) (base : Addr) (v : VWord)
    (h : a < base.toNat ∨ base.toNat + 16 ≤ a) : (m.writeAll (laneWrites base v)).read a = m.read a := by
  refine Memory.read_writeAll_other m fun w hw => ?_
  obtain ⟨k, hk, rfl⟩ := List.mem_map.1 hw
  have := List.mem_range.1 hk
  show base.toNat + k ≠ a
  omega

/-- Where no entry is at or below an address, it reads as unlisted. -/
theorem Memory.read_below {m : Memory} {a : Nat} (h : ∀ c ∈ m, a < c.1) : m.read a = Memory.unlisted := by
  cases m with
  | nil => rfl
  | cons c m => rw [Memory.read, if_pos (h c List.mem_cons_self)]

/-- Two memories in canonical form that read alike are equal. -/
theorem Memory.ext_of_read {m n : Memory} (hm : m.wf) (hn : n.wf) (h : ∀ a, m.read a = n.read a) : m = n := by
  obtain ⟨hm, hmu⟩ := hm
  obtain ⟨hn, hnu⟩ := hn
  have head : ∀ (c : Host.Cell) (m : Memory), Memory.read (c :: m) c.1 = c.2 := fun c m => by
    rw [Memory.read, if_neg (Nat.lt_irrefl _), if_pos rfl]
  induction m generalizing n with
  | nil =>
    cases n with
    | nil => rfl
    | cons d n => exact absurd ((head d n).symm.trans (h d.1).symm) (hnu d List.mem_cons_self).2
  | cons c m ih =>
    obtain ⟨hc, hm⟩ := List.pairwise_cons.1 hm
    cases n with
    | nil => exact absurd ((head c m).symm.trans (h c.1)) (hmu c List.mem_cons_self).2
    | cons d n =>
      obtain ⟨hd, hn⟩ := List.pairwise_cons.1 hn
      have key : c.1 = d.1 := by
        rcases Nat.lt_trichotomy c.1 d.1 with lt | eq | gt
        · have := h c.1
          rw [head, Memory.read, if_pos lt] at this
          exact absurd this (hmu c List.mem_cons_self).2
        · exact eq
        · have := h d.1
          rw [head, Memory.read, if_pos gt] at this
          exact absurd this.symm (hnu d List.mem_cons_self).2
      have val : c.2 = d.2 := by rw [← head c m, h, key, head]
      have tail : m = n := by
        refine ih (fun a => ?_) hm (fun x hx => hmu x (List.mem_cons_of_mem _ hx)) hn
          (fun x hx => hnu x (List.mem_cons_of_mem _ hx))
        by_cases ha : a ≤ c.1
        · rw [Memory.read_below fun x hx => Nat.lt_of_le_of_lt ha (hc x hx),
            Memory.read_below fun x hx => Nat.lt_of_le_of_lt (key ▸ ha) (hd x hx)]
        · have := h a
          rwa [Memory.read, Memory.read, if_neg (by omega), if_neg (by omega), if_neg (by omega), if_neg (by omega)] at this
      rw [tail, Prod.ext key val]

end Sys2Proof.Machine
end

