-- ==== Sys2Proof/Laws/BigEndian.lean ====
section
/-! SUPPORT. Reading and writing several bytes, most significant first: one lemma for each shared operation. -/

namespace Sys2Proof.Machine

/-- The bytes read are those of the view, one after the other. -/
theorem bytesFrom_eq_some {view : Nat → Option Byte} {addr n : Nat} {bs : List Byte} :
    bytesFrom view addr n = some bs ↔ bs.length = n ∧ ∀ k (h : k < bs.length), view (addr + k) = some bs[k] := by
  induction n generalizing addr bs with
  | zero => simp [bytesFrom]; rintro rfl; simp
  | succ n ih =>
    simp only [bytesFrom]
    constructor
    · intro h
      split at h
      · next b cs hb hc =>
        cases h
        obtain ⟨h1, h2⟩ := ih.1 hc
        refine ⟨by simp [h1], fun k hk => ?_⟩
        rcases k with _ | k
        · simpa using hb
        · simpa [Nat.add_assoc, Nat.add_comm 1 k] using h2 k (by simpa using hk)
      · cases h
    · rintro ⟨h1, h2⟩
      rcases bs with _ | ⟨b, cs⟩
      · simp at h1
      · have hb := h2 0 (by simp)
        have hc := (ih (addr := addr + 1) (bs := cs)).2 ⟨by simpa using h1, fun k hk => by
          have := h2 (k + 1) (by simpa using hk)
          simpa [Nat.add_assoc, Nat.add_comm 1 k] using this⟩
        simp at hb
        rw [hb, hc]

theorem natOfBytes_append (bs : List Byte) (b : Byte) : natOfBytes (bs ++ [b]) = natOfBytes bs * 256 + b.toNat := by
  simp [natOfBytes]

theorem natOfBytes_lt (bs : List Byte) : natOfBytes bs < 2 ^ (8 * bs.length) := by
  induction bs using List.reverseRecOn with
  | nil => simp [natOfBytes]
  | append_singleton bs b ih =>
    have hb := b.isLt
    rw [natOfBytes_append]
    simp only [List.length_append, List.length_singleton, Nat.mul_add, Nat.pow_add]
    omega

/-- The digits of the number that bytes spell, in base 256, are the bytes. -/
theorem natOfBytes_digit (bs : List Byte) (k : Nat) (h : k < bs.length) :
    natOfBytes bs / 2 ^ (8 * (bs.length - k - 1)) % 256 = bs[k].toNat := by
  induction bs using List.reverseRecOn with
  | nil => simp at h
  | append_singleton bs b ih =>
    have hb := b.isLt
    rw [natOfBytes_append]
    simp only [List.length_append, List.length_singleton] at h ⊢
    by_cases hk : k < bs.length
    · rw [List.getElem_append_left hk, ← ih hk, show 8 * (bs.length + 1 - k - 1) = 8 + 8 * (bs.length - k - 1) by omega,
        Nat.pow_add, ← Nat.div_div_eq_div_mul]
      congr 2
      omega
    · have : k = bs.length := by omega
      subst this
      simp
      omega

/-- A value is read exactly where its bytes stand, the most significant at the lowest address (20_memory.md R20). -/
theorem readBE_eq_some (view : Nat → Option Byte) (addr n : Nat) (val : BitVec (8 * n)) :
    readBE view addr n = some val ↔ ∀ k < n, view (addr + k) = some (val.extractLsb' (8 * (n - k - 1)) 8) := by
  unfold readBE
  rw [Option.map_eq_some_iff]
  constructor
  · rintro ⟨bs, hb, rfl⟩ k hk
    obtain ⟨h1, h2⟩ := bytesFrom_eq_some.1 hb
    rw [h2 k (by omega)]
    congr 1
    apply BitVec.eq_of_toNat_eq
    rw [← natOfBytes_digit bs k (by omega)]
    simp [Nat.shiftRight_eq_div_pow]
    rw [← h1, Nat.mod_eq_of_lt (natOfBytes_lt bs)]
  · intro h
    refine ⟨(List.range n).map fun k => val.extractLsb' (8 * (n - k - 1)) 8,
      bytesFrom_eq_some.2 ⟨by simp, fun k hk => by simpa using h k (by simpa using hk)⟩, ?_⟩
    generalize hbs : ((List.range n).map fun k => val.extractLsb' (8 * (n - k - 1)) 8) = bs
    have hl : bs.length = n := by simp [← hbs]
    have hlt := hl ▸ natOfBytes_lt bs
    apply BitVec.eq_of_toNat_eq
    rw [BitVec.toNat_ofNat, Nat.mod_eq_of_lt hlt]
    apply Nat.eq_of_testBit_eq
    intro j
    by_cases hj : j < 8 * n
    · have hk := natOfBytes_digit bs (n - j / 8 - 1) (by omega)
      have hd : n - (n - j / 8 - 1) - 1 = j / 8 := by omega
      simp only [hl, hd] at hk
      have e := congrArg (fun x => x.testBit (j % 8)) hk
      simp only [← hbs, List.getElem_map, List.getElem_range, BitVec.extractLsb'_toNat, hd] at e
      rw [Nat.testBit_mod_two_pow _ 8, Nat.testBit_mod_two_pow _ 8, Nat.testBit_div_two_pow, Nat.testBit_shiftRight] at e
      have hm : j % 8 < 8 := Nat.mod_lt _ (by omega)
      simp [hm] at e
      rw [Nat.add_comm, show 8 * (j / 8) + j % 8 = j by omega] at e
      rw [← hbs]
      exact e
    · have small : ∀ x, x < 2 ^ (8 * n) → x.testBit j = false := fun x hx =>
        Nat.testBit_lt_two_pow (Nat.lt_of_lt_of_le hx (Nat.pow_le_pow_right (by omega) (by omega)))
      rw [small _ hlt, small _ val.isLt]

theorem Memory.read_writeBE {n k : Nat} (m : Memory) (addr : Nat) (val : BitVec (8 * n)) (h : k < n) :
    (m.writeBE addr n val).read (addr + k) = val.extractLsb' (8 * (n - k - 1)) 8 :=
  Memory.read_writeAll_range m addr (fun k => val.extractLsb' (8 * (n - k - 1)) 8) h

theorem Memory.read_writeBE_other {n a : Nat} (m : Memory) (addr : Nat) (val : BitVec (8 * n)) (h : a < addr ∨ addr + n ≤ a) :
    (m.writeBE addr n val).read a = m.read a := by
  refine Memory.read_writeAll_other m fun w hw => ?_
  obtain ⟨k, hk, rfl⟩ := List.mem_map.1 hw
  have := List.mem_range.1 hk
  show addr + k ≠ a
  omega

/-- The sixteen lane writes of a store are those of one big-endian write (40_vector_store.md R49). -/
theorem laneWrites_eq_cellsBE (base : Addr) (v : VWord) : laneWrites base v = cellsBE base.toNat 16 v := by
  refine List.map_congr_left fun k hk => ?_
  have := List.mem_range.1 hk
  rw [lane, show 8 * (16 - k - 1) = 120 - 8 * k by omega]

end Sys2Proof.Machine
end

