-- ==== Sys2Proof/Laws/PerInstr.lean ====
section
/-! SUPPORT. A statement about every instruction, one lemma a constructor: its word carries the fixed bits of its row of the opcode
table (30_encoding.md R36, R38, R43). -/

namespace Sys2Proof.Laws.OpcodePattern

/-- The bits an instruction's row fixes. -/
def mask : Instr → Word
  | .stvxl _ _ _ => 0xFC0007FF#32
  | .stvxl128 _ _ _ => 0xFC0007F3#32

/-- The values of those bits. -/
def pattern : Instr → Word
  | .stvxl _ _ _ => 0x7C0003CE#32
  | .stvxl128 _ _ _ => 0x100003C3#32

def Statement (i : Instr) : Prop := encode i &&& mask i = pattern i

/-- A `d`-bit field shifted into place has no bit in common with a mask that is clear there. -/
theorem mask_and_shifted (d n : Nat) (m x : BitVec 32) (hx : x.toNat < 2 ^ d)
    (hm : ∀ j < 32, n ≤ j → j < n + d → m.getLsbD j = false) : m &&& x <<< n = 0#32 := by
  apply BitVec.eq_of_getLsbD_eq
  intro j hj
  rw [BitVec.getLsbD_and, BitVec.getLsbD_shiftLeft, BitVec.getLsbD_zero]
  by_cases h1 : j < n
  · simp [h1]
  by_cases h2 : j < n + d
  · rw [hm j hj (by omega) h2, Bool.false_and]
  · have : x.getLsbD (j - n) = false := by
      rw [BitVec.getLsbD]
      exact Nat.testBit_lt_two_pow (Nat.lt_of_lt_of_le hx (Nat.pow_le_pow_right (by omega) (by omega)))
    rw [this, Bool.and_false, Bool.and_false]

theorem low5_lt (x : BitVec 32) : (x &&& 31#32).toNat < 2 ^ 5 := by
  rw [BitVec.toNat_and]
  exact Nat.lt_of_le_of_lt Nat.and_le_right (by decide)

theorem reg_lt (r : GReg) : (r.setWidth 32).toNat < 2 ^ 5 := by
  have := r.isLt
  rw [BitVec.toNat_setWidth]
  omega

theorem high2_lt (vs : VReg) : (vs.setWidth 32 >>> 5).toNat < 2 ^ 2 := by
  have := vs.isLt
  rw [BitVec.toNat_ushiftRight, BitVec.toNat_setWidth, Nat.shiftRight_eq_div_pow]
  omega

theorem stvxl (vs : VReg) (ra rb : GReg) : Statement (.stvxl vs ra rb) := by
  show (_ ||| _ ||| _ ||| _) &&& _ = _
  rw [BitVec.and_comm]
  simp only [mask, pattern, BitVec.and_or_distrib_left]
  rw [mask_and_shifted 5 21 _ _ (low5_lt _) (by decide), mask_and_shifted 5 16 _ _ (reg_lt ra) (by decide),
    mask_and_shifted 5 11 _ _ (reg_lt rb) (by decide)]
  decide

theorem stvxl128 (vs : VReg) (ra rb : GReg) : Statement (.stvxl128 vs ra rb) := by
  show (_ ||| _ ||| _ ||| _ ||| _) &&& _ = _
  rw [BitVec.and_comm]
  simp only [mask, pattern, BitVec.and_or_distrib_left]
  rw [mask_and_shifted 5 21 _ _ (low5_lt _) (by decide), mask_and_shifted 5 16 _ _ (reg_lt ra) (by decide),
    mask_and_shifted 5 11 _ _ (reg_lt rb) (by decide), mask_and_shifted 2 2 _ _ (high2_lt vs) (by decide)]
  decide

end Sys2Proof.Laws.OpcodePattern
end

