-- ==== Sys2Proof/Laws/Platform.lean ====
section
/-! SUPPORT. What the tests over the platform's parameters say, as propositions. -/

namespace Sys2Proof.Machine

theorem Platform.inProgram_iff (p : Platform) (a : Nat) :
    p.inProgram a = true ↔ p.progBase.toNat ≤ a ∧ a < p.progEnd := by
  rw [Platform.inProgram, Bool.and_eq_true, decide_eq_true_iff, decide_eq_true_iff]

theorem Platform.inProgram_eq_false (p : Platform) (a : Nat) :
    p.inProgram a = false ↔ a < p.progBase.toNat ∨ p.progEnd ≤ a := by
  rw [← Bool.not_eq_true, Platform.inProgram_iff]; omega

theorem Platform.admits_iff (p : Platform) (a : Addr) :
    p.admits a = true ↔ ∃ r ∈ p.admitted, r.first ≤ a.toNat / 16 ∧ a.toNat / 16 ≤ r.last := by
  rw [Platform.admits, List.any_eq_true]
  exact exists_congr fun r => and_congr_right fun _ => by
    rw [Bool.and_eq_true, decide_eq_true_iff, decide_eq_true_iff]

theorem Platform.backs_iff (p : Platform) (a : Nat) :
    p.backs a = true ↔ a < 2 ^ 32 ∧ p.admits (BitVec.ofNat 32 a) = true := by
  rw [Platform.backs, Bool.and_eq_true, decide_eq_true_iff]

/-- A byte is seen where the platform backs the address, and then what memory reads as. -/
theorem Platform.view_eq_some (p : Platform) (m : Memory) (a : Nat) (b : Byte) :
    p.view m a = some b ↔ p.backs a = true ∧ m.read a = b := by
  unfold Platform.view; split <;> simp_all

theorem Platform.view_of_backs {p : Platform} {a : Nat} (m : Memory) (h : p.backs a = true) :
    p.view m a = some (m.read a) := if_pos h

/-- What is seen at an address depends on memory only through what it reads as there. -/
theorem Platform.view_congr (p : Platform) {m n : Memory} {a : Nat} (h : m.read a = n.read a) : p.view m a = p.view n a := by
  unfold Platform.view; rw [h]

/-- An admitted address holds a byte, whatever memory lists (70_reset_and_hazards.md R69). -/
theorem State.byteAt_isSome (s : State) :
    ∀ a < 2 ^ 32, s.platform.admits (BitVec.ofNat 32 a) = true → (s.byteAt a).isSome = true := fun a ha hp => by
  rw [State.byteAt, Platform.view_of_backs _ ((Platform.backs_iff _ _).2 ⟨ha, hp⟩), Option.isSome_some]

/-- A block and the program overlap when they share a byte. -/
theorem Platform.overlapsProgram_iff (p : Platform) (base : Addr) :
    p.overlapsProgram base = true ↔ ∃ a, base.toNat ≤ a ∧ a < base.toNat + 16 ∧ p.inProgram a = true := by
  rw [Platform.overlapsProgram, decide_eq_true_iff]
  simp only [Platform.inProgram_iff]
  constructor
  · intro h
    exact ⟨max base.toNat p.progBase.toNat, by omega, by omega, by omega, by omega⟩
  · rintro ⟨a, h⟩
    omega

/-- A block that does not overlap the program holds no byte of it. -/
theorem Platform.overlapsProgram_eq_false (p : Platform) (base : Addr) :
    p.overlapsProgram base = false ↔ ∀ a, base.toNat ≤ a → a < base.toNat + 16 → p.inProgram a = false := by
  rw [← Bool.not_eq_true, Platform.overlapsProgram_iff]
  simp only [not_exists, not_and, Bool.not_eq_true]

theorem keepsReservation_iff (storing g : Nat) (ownCleared : Bool) (r : Nat × Nat) :
    keepsReservation storing g ownCleared r = true ↔ r.2 ≠ g ∨ r.1 = storing ∧ ownCleared = false := by
  rw [keepsReservation, Bool.or_eq_true, Bool.and_eq_true, decide_eq_true_iff, decide_eq_true_iff, Bool.not_eq_true']

end Sys2Proof.Machine
end

