-- ==== Sys2Proof/Laws/Schedule.lean ====
section
/-! SUPPORT. Everything that can happen between two steps. -/

namespace Sys2Proof.Machine

/-- What an arrival is: nothing where nothing is pending, else the oldest pending write to some byte is performed. -/
theorem Agent.arrive_cases (ag : Agent) (m : Memory) (pick : Nat) :
    (ag.pending = [] ∧ ag.arrive m pick = (ag, m)) ∨
      ∃ us w vs, ag.pending = us ++ w :: vs ∧ (∀ x ∈ us, x.1 ≠ w.1) ∧
        ag.arrive m pick = ({ ag with pending := us ++ vs }, m.write w.1 w.2) := by
  unfold Agent.arrive
  split
  · next h =>
    left
    rw [List.getElem?_eq_none_iff] at h
    refine ⟨List.length_eq_zero_iff.1 (Nat.eq_zero_of_not_pos fun hp => ?_), rfl⟩
    exact absurd (Nat.mod_lt pick hp) (by omega)
  · next c h =>
    have hc : c ∈ ag.pending := List.mem_of_getElem? h
    split
    · next hf => exact absurd (List.find?_eq_none.1 hf c hc) (by simp)
    · next w hf =>
      right
      obtain ⟨hw, us, vs, he, hus⟩ := List.find?_eq_some_iff_append.1 hf
      have hwc : w.1 = c.1 := by simpa using hw
      have hne : ∀ x ∈ us, x.1 ≠ c.1 := fun x hx => by simpa using hus x hx
      refine ⟨us, w, vs, he, fun x hx => hwc ▸ hne x hx, ?_⟩
      have : ag.pending.eraseP (fun w => w.1 == c.1) = us ++ vs := by
        rw [he, List.eraseP_append_right _ (fun x hx => by simpa using hne x hx), List.eraseP_cons_of_pos (by simp [hwc])]
      rw [this]

/-- What one arrival does: it draws a free value, and either that is all, or one agent's arrival is performed. -/
theorem State.arriveOne_cases (s : State) :
    s.arriveOne = { s with draw := s.draw + 1 } ∨
      (∃ pick, s.arriveOne =
        { s with cur := (s.cur.arrive s.mem pick).1, mem := (s.cur.arrive s.mem pick).2, draw := s.draw + 1 }) ∨
      ∃ pick us ag vs, s.others = us ++ ag :: vs ∧ s.arriveOne =
        { s with others := us ++ (ag.arrive s.mem pick).1 :: vs, mem := (ag.arrive s.mem pick).2, draw := s.draw + 1 } := by
  unfold State.arriveOne
  split
  · exact .inr (.inl ⟨_, rfl⟩)
  · next j _ =>
    split
    · exact .inl rfl
    · next ag h =>
      obtain ⟨hj, rfl⟩ := List.getElem?_eq_some_iff.1 h
      refine .inr (.inr ⟨Config.arrivalByte s.draw, s.others.take j, s.others[j], s.others.drop (j + 1), ?_, ?_⟩)
      · rw [List.getElem_cons_drop, List.take_append_drop]
      · simp only [List.set_eq_take_append_cons_drop, if_pos hj]

/-- What handing over does: it draws a free value, and either that is all, or the acting agent and one of the others change places. -/
theorem State.handOver_cases (s : State) :
    s.handOver = { s with draw := s.draw + 1 } ∨
      ∃ us ag vs, s.others = us ++ ag :: vs ∧
        s.handOver = { s with cur := ag, others := us ++ s.cur :: vs, draw := s.draw + 1 } := by
  unfold State.handOver
  split
  · exact .inl rfl
  · next j _ =>
    split
    · exact .inl rfl
    · next ag h =>
      obtain ⟨hj, rfl⟩ := List.getElem?_eq_some_iff.1 h
      refine .inr ⟨s.others.take j, s.others[j], s.others.drop (j + 1), ?_, ?_⟩
      · rw [List.getElem_cons_drop, List.take_append_drop]
      · rw [List.set_eq_take_append_cons_drop, if_pos hj]

/-- With one agent nothing happens between steps. -/
theorem State.afterStep_single {s : State} (h : s.others = []) : s.afterStep = s := by
  simp [State.afterStep, h]

/-- Induction over what happens between steps: a property of the state after a step holds in the next one if drawing a free value, an
arrival and a change of places keep it. -/
theorem State.afterStep_induct {P : State → Prop} (s : State) (h : P s)
    (draw : ∀ u n, P u → P { u with draw := n }) (arrive : ∀ u, P u → P u.arriveOne) (hand : ∀ u, P u → P u.handOver) :
    P s.afterStep := by
  have many : ∀ n u, P u → P (State.arriveMany n u) := by
    intro n
    induction n with
    | zero => exact fun u hu => hu
    | succ n ih => exact fun u hu => ih _ (arrive u hu)
  unfold State.afterStep
  split
  · exact h
  · exact hand _ (many _ _ (draw _ _ h))

end Sys2Proof.Machine
end

