-- ==== Sys2Proof/Laws/State.lean ====
section
/-! SUPPORT. What each update of the state does to each field. -/

namespace Sys2Proof.Machine

variable (s : State) (base : Addr) (ws : List Host.Cell)

@[simp] theorem State.advancePc_cur : s.advancePc.cur = { s.cur with pc := s.cur.pc + 4#32 } := rfl
@[simp] theorem State.advancePc_others : s.advancePc.others = s.others := rfl
@[simp] theorem State.advancePc_mem : s.advancePc.mem = s.mem := rfl
@[simp] theorem State.advancePc_resv : s.advancePc.resv = s.resv := rfl
@[simp] theorem State.advancePc_platform : s.advancePc.platform = s.platform := rfl
@[simp] theorem State.advancePc_draw : s.advancePc.draw = s.draw := rfl

@[simp] theorem State.clearReservations_cur : (s.clearReservations base).cur = s.cur := rfl
@[simp] theorem State.clearReservations_others : (s.clearReservations base).others = s.others := rfl
@[simp] theorem State.clearReservations_mem : (s.clearReservations base).mem = s.mem := rfl
@[simp] theorem State.clearReservations_platform : (s.clearReservations base).platform = s.platform := rfl
@[simp] theorem State.clearReservations_draw : (s.clearReservations base).draw = s.draw + 1 := rfl

/-- The table after a clear is the table before with pairs left out. -/
theorem State.clearReservations_resv_sublist : (s.clearReservations base).resv.Sublist s.resv := by
  simp only [State.clearReservations]
  split
  · exact List.filter_sublist
  · exact List.Sublist.refl _

@[simp] theorem State.performWrites_others : (s.performWrites ws).others = s.others := by
  unfold State.performWrites; split <;> rfl

@[simp] theorem State.performWrites_resv : (s.performWrites ws).resv = s.resv := by
  unfold State.performWrites; split <;> rfl

@[simp] theorem State.performWrites_platform : (s.performWrites ws).platform = s.platform := by
  unfold State.performWrites; split <;> rfl

@[simp] theorem State.performWrites_draw : (s.performWrites ws).draw = s.draw := by
  unfold State.performWrites; split <;> rfl

@[simp] theorem State.performWrites_id : (s.performWrites ws).cur.id = s.cur.id := by
  unfold State.performWrites; split <;> rfl

@[simp] theorem State.performWrites_gpr : (s.performWrites ws).cur.gpr = s.cur.gpr := by
  unfold State.performWrites; split <;> rfl

@[simp] theorem State.performWrites_vr : (s.performWrites ws).cur.vr = s.cur.vr := by
  unfold State.performWrites; split <;> rfl

@[simp] theorem State.performWrites_unset : (s.performWrites ws).cur.unset = s.cur.unset := by
  unfold State.performWrites; split <;> rfl

@[simp] theorem State.performWrites_pc : (s.performWrites ws).cur.pc = s.cur.pc := by
  unfold State.performWrites; split <;> rfl

/-- With one agent the writes are performed at once. -/
theorem State.performWrites_single (h : s.others = []) :
    (s.performWrites ws).mem = s.mem.writeAll (s.cur.pending ++ ws) ∧ (s.performWrites ws).cur.pending = [] := by
  simp [State.performWrites, h]

/-- With several agents the writes join the pending ones. -/
theorem State.performWrites_several (h : s.others ≠ []) :
    (s.performWrites ws).mem = s.mem ∧ (s.performWrites ws).cur.pending = s.cur.pending ++ ws := by
  simp [State.performWrites, h]

end Sys2Proof.Machine
end

