-- ==== Sys2Proof/Laws/VectorStore.lean ====
section
/-! SUPPORT. Everything the store of the two instructions can do. -/

namespace Sys2Proof.Machine

/-- The acting agent sees its own writes at once, whether or not they have arrived. -/
theorem State.performWrites_ownMemory (s : State) (ws : List Host.Cell) :
    (s.performWrites ws).ownMemory = s.ownMemory.writeAll ws := by
  unfold State.ownMemory
  by_cases h : s.others = []
  · obtain ⟨hm, hp⟩ := State.performWrites_single s ws h
    rw [hm, hp, Memory.writeAll_append]; rfl
  · obtain ⟨hm, hp⟩ := State.performWrites_several s ws h
    rw [hm, hp, Memory.writeAll_append]

/-- After a store the agent sees the sixteen lane writes in its memory, and nothing else there changed. -/
theorem State.afterStore_ownMemory (s : State) (base : Addr) (v : VWord) :
    (s.afterStore base v).ownMemory = s.ownMemory.writeAll (laneWrites base v) :=
  State.performWrites_ownMemory (s.clearReservations base) (laneWrites base v)

@[simp] theorem State.afterStore_platform (s : State) (base : Addr) (v : VWord) :
    (s.afterStore base v).platform = s.platform := by
  simp [State.afterStore]

/-- A lane stands at its address where the platform backs that. -/
theorem State.afterStore_ownByte_lane {k : Nat} (s : State) (base : Addr) (v : VWord) (h : k < 16)
    (ha : s.platform.backs (base.toNat + k) = true) :
    (s.afterStore base v).ownByte (base.toNat + k) = some (lane v k) := by
  rw [State.ownByte, State.afterStore_platform, Platform.view_of_backs _ ha, State.afterStore_ownMemory,
    Memory.read_laneWrites _ _ _ h]

theorem State.afterStore_ownByte_other {a : Nat} (s : State) (base : Addr) (v : VWord)
    (h : a < base.toNat ∨ base.toNat + 16 ≤ a) : (s.afterStore base v).ownByte a = s.ownByte a := by
  rw [State.ownByte, State.afterStore_platform, State.afterStore_ownMemory]
  exact Platform.view_congr _ (Memory.read_laneWrites_other _ _ _ h)

/-- The store answers a next state exactly when none of its guards fires, and then that one. -/
theorem storeIndexed_eq_next {vs : VReg} {ra rb : GReg} {s t : State} :
    storeIndexed vs ra rb s = .next t ↔
      s.CanStore vs ra rb ∧ t = s.afterStore (s.storeBase ra rb) (s.cur.vrValue vs) := by
  unfold storeIndexed State.storeVector raise refuse State.CanStore
  cases hv : s.platform.vectorAvailable
  · simp
  by_cases hpc : s.cur.pc = 0xFFFFFFFC#32
  · simp [hpc]
  simp only [hpc]
  cases hu : s.cur.firstUnset (operandRegs vs ra rb)
  · cases ha : s.platform.admits (s.storeBase ra rb)
    · simp
    cases ho : s.platform.overlapsProgram (s.storeBase ra rb)
    · simp [hpc, eq_comm]
    · simp
  · simp

/-- Both instructions are the one store. -/
theorem exec_eq_storeIndexed {i : Instr} {vs : VReg} {ra rb : GReg} (s : State)
    (h : i = .stvxl vs ra rb ∨ i = .stvxl128 vs ra rb) : exec i s = storeIndexed vs ra rb s := by
  rcases h with rfl | rfl <;> rfl

/-- Every instruction is one of the two, with its operands. -/
theorem Instr.operands (i : Instr) : ∃ vs ra rb, i = .stvxl vs ra rb ∨ i = .stvxl128 vs ra rb := by
  cases i with
  | stvxl vs ra rb => exact ⟨vs, ra, rb, .inl rfl⟩
  | stvxl128 vs ra rb => exact ⟨vs, ra, rb, .inr rfl⟩

/-- What an instruction that completes did. -/
theorem exec_next_cases {i : Instr} {s t : State} (h : exec i s = .next t) :
    ∃ vs ra rb, (i = .stvxl vs ra rb ∨ i = .stvxl128 vs ra rb) ∧ s.CanStore vs ra rb ∧
      t = s.afterStore (s.storeBase ra rb) (s.cur.vrValue vs) := by
  obtain ⟨vs, ra, rb, hi⟩ := Instr.operands i
  rw [exec_eq_storeIndexed s hi, storeIndexed_eq_next] at h
  exact ⟨vs, ra, rb, hi, h⟩

end Sys2Proof.Machine
end

