-- ==== Sys2Proof/Laws/Step.lean ====
section
/-! SUPPORT. What a step that answers a next state did. -/

namespace Sys2Proof.Machine

/-- A fetch gives an instruction only from a legal address inside the program, from the word there. -/
theorem State.fetch_eq_run {s : State} {i : Instr} (h : s.fetch = .run i) :
    s.cur.pc.toNat % 4 = 0 ∧ s.cur.ended s.platform = false ∧ s.platform.inProgram s.cur.pc.toNat = true ∧
      ∃ w, s.fetchWord = some w ∧ decodeWord w = some i := by
  unfold State.fetch at h
  split at h
  · cases h
  · next hp =>
    split at h
    · cases h
    · next he =>
      split at h
      · cases h
      · next hi =>
        split at h
        · cases h
        · next w hw =>
          split at h
          · cases h
          · next i' hd =>
            cases h
            exact ⟨by omega, by simpa using he, by simpa using hi, w, hw, hd⟩

/-- A fetch finds the agent ended only at the end address. -/
theorem State.fetch_eq_ended {s : State} (h : s.fetch = .ended) :
    s.cur.pc.toNat % 4 = 0 ∧ s.cur.ended s.platform = true := by
  unfold State.fetch at h
  split at h
  · cases h
  · next hp =>
    split at h
    · next he => exact ⟨by omega, he⟩
    · split at h
      · cases h
      · split at h
        · cases h
        · split at h <;> cases h

/-- A step that answers a next state let an ended agent pass or ran one store, and then what happens between steps. -/
theorem step_next_cases {s t : State} (h : step s = .next t) :
    (s.fetch = .ended ∧ t = s.afterStep) ∨
      ∃ i vs ra rb, s.fetch = .run i ∧ (i = .stvxl vs ra rb ∨ i = .stvxl128 vs ra rb) ∧ s.CanStore vs ra rb ∧
        t = (s.afterStore (s.storeBase ra rb) (s.cur.vrValue vs)).afterStep := by
  unfold step at h
  split at h
  · next hf => cases h; exact .inl ⟨hf, rfl⟩
  · next i hf =>
    right
    cases he : exec i s with
    | next u =>
      rw [he] at h
      cases h
      obtain ⟨vs, ra, rb, hi, hc, rfl⟩ := exec_next_cases he
      exact ⟨i, vs, ra, rb, hf, hi, hc, rfl⟩
    | fault f => rw [he] at h; cases h
    | refused r => rw [he] at h; cases h
  · cases h
  · cases h

end Sys2Proof.Machine
end

