-- ==== Sys2Proof/Tests/Slice0.lean ====
section
/-! SUPPORT. Tests against the worked examples and vectors of spec/95_test_vectors.md, and for every statement with hypotheses a state and
operands that meet them. -/

namespace Sys2Proof.Tests

open Sys2Proof Sys2Proof.Machine

/-! ## Well-formedness: the one check, at its bound (30_encoding.md R47) -/

theorem test_wellFormed_refuses_stvxl_v32 : ¬(Instr.stvxl 32 3 4).WellFormed := by decide
theorem witness_wellFormed : (Instr.stvxl 31 0 31).WellFormed ∧ (Instr.stvxl128 127 31 0).WellFormed :=
  ⟨by decide, trivial⟩

/-! ## Decoding: words written out bit by bit (95_test_vectors.md section 2) -/

theorem test_decode_D1 : decodeWord 0b01111100000000000000001111001110#32 = some (.stvxl 0 0 0) := by decide
theorem test_decode_D3 : decodeWord 0b01111100101000110010001111001110#32 = some (.stvxl 5 3 4) := by decide
theorem test_decode_D4 : decodeWord 0b01111100111000010001001111001110#32 = some (.stvxl 7 1 2) := by decide
theorem test_decode_D10 : decodeWord 0b00010000000000000010101111000111#32 = some (.stvxl128 32 0 5) := by decide
theorem test_decode_D11 : decodeWord 0b00010000000010100101101111001011#32 = some (.stvxl128 64 10 11) := by decide
theorem test_decode_D13 : decodeWord 0b00010000100000110010001111001111#32 = some (.stvxl128 100 3 4) := by decide
theorem test_encode_D6 : encode (.stvxl 31 31 31) = 0x7FFFFBCE#32 := by decide
theorem test_encode_D14 : encode (.stvxl128 127 31 31) = 0x13FFFBCF#32 := by decide
theorem test_decode_X1_rc : decodeWord 0x7C0003CF#32 = none := by decide
theorem test_decode_bytes_D3 : decodeTableWord 32 0x7CA323CE = some (.stvxl 5 3 4) := by decide
theorem test_text_D13 : (disassemble (.stvxl128 100 3 4)).text = "stvxl128 v100, r3, r4" := by decide
theorem test_text_zero_base : (disassemble (.stvxl 1 0 4)).text = "stvxl v1, 0, r4" := by decide

/-! ## The start state of 95_test_vectors.md section 6 -/

/-- `x[3] = 0x1000`, `x[4] = 0x27`, `v[5]` = M2, `v[100]` = M3; `r0`, `r5`, `v6` UNSET. -/
def agentF : Agent :=
  { Agent.reset with
    gpr := (Agent.reset.gpr.set 3 0x1000#64).set 4 0x27#64
    vr := (Agent.reset.vr.set 5 0x00112233445566778899AABBCCDDEEFF#128).set 100 0xDEADBEEF0123456789ABCDEFF00DFACE#128
    unset := [.gpr 0, .gpr 5, .vr 6] }

/-- `Admit` true for `0x1000 … 0x1FFF` and for the program; one program word at `0x00010000`; the bytes around the block `0x1020` hold
`EE`. -/
def stateF (w : Word) : State :=
  State.load { State.reset with
    cur := agentF
    mem := [(0x101F, 0xEE#8), (0x1030, 0xEE#8)]
    platform := { Platform.reset with admitted := [⟨0x100, 0x1FF⟩] } } 0x00010000#32 [w]

/-- One field of the next state, if there is one. -/
def nextField {α : Type} (o : Host.Outcome State Fault Refusal) (f : State → α) : Option α :=
  match o with
  | .next t => some (f t)
  | .fault _ => none
  | .refused _ => none

/-! ## Two tests an instruction -/

/-- F1 with M2 and P1: the first and the last byte, the bytes around the block, and pc. -/
theorem test_stvxl_F1 :
    nextField (step (stateF 0x7CA323CE#32))
        (fun t => ([0x101F, 0x1020, 0x102F, 0x1030].map t.byteAt, t.cur.pc)) =
      some ([some 0xEE#8, some 0x00#8, some 0xFF#8, some 0xEE#8], 0x00010004#32) := by decide

/-- F5: `r0` is UNSET but RA = 0 does not read it. -/
theorem test_stvxl_F5_zero_base :
    nextField (step (stateF 0x7CA01BCE#32)) (fun t => [0x1000, 0x1001].map t.byteAt) = some [some 0x00#8, some 0x11#8] := by
  decide

/-- R51's worked example: `v100` at the block of the misaligned sum. -/
theorem test_stvxl128_worked_example :
    nextField (step (stateF 0x108323CF#32)) (fun t => [0x1020, 0x1023, 0x102F].map t.byteAt) =
      some [some 0xDE#8, some 0xEF#8, some 0xCE#8] := by decide

/-- R69: a byte at both ends of the admitted range, nothing just outside it. -/
theorem test_bytes_exactly_where_admitted :
    ([0x0FFF, 0x1000, 0x1FFF, 0x2000].map fun a => ((stateF 0x7CA323CE#32).byteAt a).isSome) = [false, true, true, false] := by
  decide

/-- The addresses E7, E10 and E12: carry dropped, high half dropped, low bits dropped. -/
theorem test_effective_address_E7_E10_E12 :
    effectiveAddress 0xFFFFFFFFFFFFFFF8#64 0x18#64 = 0x10#32 ∧ effectiveAddress 0 0xFFFFFFFF8000001F#64 = 0x80000010#32 ∧
      effectiveAddress 0x1008#64 0x1008#64 = 0x2010#32 := by decide

/-! ## Witnesses: states and operands that meet the hypotheses of the statements -/

/-- `StvxlVsIsAFiveBitSource`, `StvxlStoresTheSixteenLanes`, `StoreClears…`, and every statement that asks `CanStore`. -/
theorem witness_canStore_stvxl : (stateF 0x7CA323CE#32).CanStore 5 3 4 := by decide
theorem witness_canStore_stvxl128 : (stateF 0x108323CF#32).CanStore 100 3 4 := by decide

/-- The highest register, the highest operands and the top block: `v127`, RA = RB = 31, base 0xFFFFFFF0. -/
theorem witness_canStore_boundary :
    ({ State.reset with cur := { Agent.reset with gpr := Agent.reset.gpr.set 31 0x7FFFFFFF#64 } } : State).CanStore 127 0 31 ∧
    ({ State.reset with cur := { Agent.reset with gpr := Agent.reset.gpr.set 31 0xFFFFFFFF80000000#64 } } : State).CanStore 127 31 31 := by
  decide

/-- `RbReadsItsRegisterWithNoSpecialCase`: RA = 0 with RB = 0, and RB = 0 beside another RA. -/
theorem witness_zero_base : State.reset.CanStore 0 0 0 ∧ State.reset.CanStore 0 31 0 ∧
    (stateF 0x7CA023CE#32).CanStore 5 0 3 := by decide

/-- `RaZeroIsTheConstantZero`, `LowFourBitsOfTheSumAffectNothing`: an outcome of each kind with RA = 0 and RB ≠ 0. -/
theorem witness_zero_base_next : ∃ t, exec (.stvxl 5 0 3) (stateF 0x7CA01BCE#32) = .next t := ⟨_, rfl⟩
theorem witness_zero_base_fault : exec (.stvxl 5 0 4) (stateF 0x7CA023CE#32) = .fault (.storeNotAdmitted 0x20#32) := by rfl
theorem witness_zero_base_refused :
    exec (.stvxl 5 0 3) { stateF 0x7CA01BCE#32 with cur := { agentF with pc := 0xFFFFFFFC#32 } } = .refused .pcOverflow := by rfl

/-- `LowFourBitsOfTheSumAffectNothing`: 0x1027 and 0x102F agree above bit 3. -/
theorem witness_low_four_bits :
    let g := agentF.gpr.set 4 0x2F#64
    (({ agentF with gpr := g } : Agent).ra0 3 + ({ agentF with gpr := g } : Agent).gprValue 4).toNat / 16 =
      (agentF.ra0 3 + agentF.gprValue 4).toNat / 16 := by decide

/-- `EncodedWordIsTheSumOfItsFields`, `DecodeThenEncode…`, `Stvxl128VsIsTheSplitNumber`, `DecodeTakesBytesBigEndian`,
`PlacedWordIsWhatTheNextStepRuns`: words that decode and words that do not. -/
theorem witness_decodes : (31 : VReg).toNat < 32 ∧ decodeWord 0x7FFFFBCE#32 = some (.stvxl 31 31 31) ∧
    decodeWord 0x13FFFBCF#32 = some (.stvxl128 127 31 31) ∧ decodeWord 0x00000000#32 = none ∧
    decodeTableWord 32 0x13FFFBCF = some (.stvxl128 127 31 31) ∧ (stateF 0#32).cur.pc.toNat % 4 = 0 := by decide

/-- `RecordFormAndReservedLowBitsDoNotDecode`, each clause. -/
theorem witness_neighbours : 0x7CA323CF#32 &&& 0xFC0007FF#32 = 0x7C0003CF#32 ∧
    0x100003C2#32 &&& 0xFC0007F0#32 = 0x100003C0#32 ∧ 0x100003C2#32 &&& 3#32 ≠ 3#32 := by decide

/-- `AssemblerLinesAreTheInstructions`, the second clause. -/
theorem witness_assemble : assemble ⟨.stvxl128, .vreg 127, .zero, .greg 0⟩ = some (.stvxl128 127 0 0) := by decide

/-- Two agents; agent 1 stands at the end address. 95_test_vectors.md section 7, V5, at the granule 0x1000. -/
def stateV : State :=
  { stateF 0x7CA323CE#32 with
    others := [{ Agent.reset with id := 1, pc := 0x00010004#32 }]
    resv := [(0, 0x1000), (1, 0x1000), (1, 0x1080)] }

/-- `StoreAmongSeveralAgentsIsSixteenByteWrites`, `StoreClearsOtherAgentsReservationsOnItsGranule` and, with tracking off,
`WithoutTrackingReservationsStay`. -/
theorem witness_several_agents : stateV.others ≠ [] ∧ stateV.CanStore 5 3 4 ∧ stateV.platform.reservationTracking = true ∧
    (1, 0x1000) ∈ stateV.resv ∧ (stateV.storeBase 3 4).toNat / 128 * 128 = 0x1000 := by decide
theorem witness_tracking_off :
    ({ stateV with platform := { stateV.platform with reservationTracking := false } } : State).CanStore 5 3 4 := by decide

/-- `SingleAgentStoreIsOneMemWrite`. -/
theorem witness_single_agent : (stateF 0x7CA323CE#32).others = [] ∧ (stateF 0x7CA323CE#32).cur.pending = [] := by decide

/-- `StoreChangesOnlyBytesPcAndReservations`, `StoredBlockReads…`: a store that completes, with one agent and with two. -/
theorem witness_exec_next : ∃ t, exec (.stvxl 5 3 4) (stateF 0x7CA323CE#32) = .next t := ⟨_, rfl⟩
theorem witness_exec128_next : ∃ t, exec (.stvxl128 100 3 4) stateV = .next t := ⟨_, rfl⟩

/-- `LaterStoreToABlockWins`: `v5` and then `v100` to one block. -/
theorem witness_two_stores : ∃ t u, exec (.stvxl 5 3 4) (stateF 0x7CA323CE#32) = .next t ∧
    exec (.stvxl128 100 3 4) t = .next u := ⟨_, _, rfl, rfl⟩

/-- `StoreGuardsStopInTheirOrder`: no vector facility; pc at the top; F2, not admitted; F7, into the program. -/
theorem witness_vector_unavailable :
    ({ stateF 0#32 with platform := { Platform.reset with vectorAvailable := false } } : State).platform.vectorAvailable = false := rfl
theorem witness_not_admitted : (stateF 0x7CA023CE#32).cur.firstUnset (operandRegs 5 0 4) = none ∧
    (stateF 0x7CA023CE#32).platform.admits ((stateF 0x7CA023CE#32).storeBase 0 4) = false := by decide
theorem witness_into_program :
    let s : State := { stateF 0x7CA323CE#32 with cur := { agentF with gpr := agentF.gpr.set 3 0x10000#64 } }
    s.cur.firstUnset (operandRegs 5 3 4) = none ∧ s.platform.admits (s.storeBase 3 0) = true ∧
      (s.storeBase 3 0).toNat ≤ 0x10003 ∧ 0x10003 < (s.storeBase 3 0).toNat + 16 ∧ 0x10003 < s.platform.progBase.toNat + 4 * s.platform.progLen := by
  decide

/-- `FirstUnsetOperandFaults`: RA (F4 and F8), RB, VS (F3). -/
theorem witness_unset : let u := (stateF 0#32).cur.unset
    RegName.gpr 5 ∈ u ∧ RegName.gpr 3 ∉ u ∧ RegName.gpr 0 ∈ u ∧ RegName.gpr 4 ∉ u ∧ RegName.vr 6 ∈ u ∧
      (stateF 0#32).platform.vectorAvailable = true ∧ (stateF 0#32).cur.pc ≠ 0xFFFFFFFC#32 := by decide

/-- `FetchGuardsStopInTheirOrder`: P4, misaligned; outside the program on both sides; F6, a word out of scope. -/
theorem witness_fetch_guards : (0x00010002#32).toNat % 4 ≠ 0 ∧
    (0x0000FFFC#32).toNat < (stateF 0#32).platform.progBase.toNat ∧
    (stateF 0#32).platform.progBase.toNat + 4 * (stateF 0#32).platform.progLen < (0x00010008#32).toNat ∧
    (stateF 0x7CA323CF#32).byteAt 0x10000 = some 0x7C#8 ∧ (stateF 0x7CA323CF#32).byteAt 0x10001 = some 0xA3#8 ∧
    (stateF 0x7CA323CF#32).byteAt 0x10002 = some 0x23#8 ∧ (stateF 0x7CA323CF#32).byteAt 0x10003 = some 0xCF#8 ∧
    decodeWord (wordOfBytes 0x7C#8 0xA3#8 0x23#8 0xCF#8) = none := by decide

/-- `StepRunsTheDecodedInstruction`: the four bytes of D3 at pc. -/
theorem witness_step_runs : (stateF 0x7CA323CE#32).cur.pc.toNat = 0x10000 ∧ (stateF 0x7CA323CE#32).platform.progBase.toNat = 0x10000 ∧
    (stateF 0x7CA323CE#32).platform.progLen = 1 ∧ (stateF 0x7CA323CE#32).byteAt 0x10000 = some 0x7C#8 ∧
    (stateF 0x7CA323CE#32).byteAt 0x10001 = some 0xA3#8 ∧ (stateF 0x7CA323CE#32).byteAt 0x10002 = some 0x23#8 ∧
    (stateF 0x7CA323CE#32).byteAt 0x10003 = some 0xCE#8 ∧
    decodeWord (wordOfBytes 0x7C#8 0xA3#8 0x23#8 0xCE#8) = some (.stvxl 5 3 4) := by decide

/-- `EndedAgentTakesNoStep`: the state after reset, whose program is empty. -/
theorem witness_ended : State.reset.cur.pc.toNat % 4 = 0 ∧
    State.reset.cur.pc.toNat = State.reset.platform.progBase.toNat + 4 * State.reset.platform.progLen := by decide

/-- `MemWriteAndMemReadAreBigEndianInverses`: the last bytes of the address space, and a value read back. -/
theorem witness_memwrite : 1 ≤ 16 ∧ 0xFFFFFFF0 + 16 - 1 ≤ 0xFFFFFFFF ∧
    (∀ k < 4, Platform.reset.admits (BitVec.ofNat 32 (0xFFFFFFFC + k)) = true) ∧
    readBE (Platform.reset.view (Memory.writeBE [] 0xFFFFFFFC 4 0x01000304#32)) 0xFFFFFFFC 4 = some 0x01000304#32 := by decide

/-- `AdmitIsConstantOnAlignedBlocks`, `StoreStaysInOneAlignedBlock`: the ends of a block, and lane 15. -/
theorem witness_blocks : (0x1020#32).toNat / 16 = (0x102F#32).toNat / 16 ∧ 15 < 16 := by decide

/-- `EveryStepKeepsTheRunInvariant` and the other statements over runs: a state with two agents and reservations that has the
invariant. -/
theorem witness_inv : stateV.Inv where
  platform := by decide
  memWf := by decide
  memAdmitted := by decide
  memHeld := State.byteAt_isSome _
  pcLegal := by decide
  pendingStorable := by decide
  singleDrained := by decide
  resvRising := by decide
  resvLegal := by decide
  resvUntracked := by decide
  idsDistinct := by decide

theorem witness_inv_single : (stateF 0x7CA323CE#32).Inv where
  platform := by decide
  memWf := by decide
  memAdmitted := by decide
  memHeld := State.byteAt_isSome _
  pcLegal := by decide
  pendingStorable := by decide
  singleDrained := by decide
  resvRising := by decide
  resvLegal := by decide
  resvUntracked := by decide
  idsDistinct := by decide

/-- `NoStepWritesARegister`, `NoStepChangesTheParameters`, `NoStepMakesAReservation`, `StepMovesOnlyTheActingAgentsPcByFour`,
`OnlyStorableBytesEverChange`: steps that answer a next state, with several agents, with one, and of an ended agent. -/
theorem witness_step_several : ∃ t, step stateV = .next t := ⟨_, rfl⟩
theorem witness_step_single : ∃ t, step (stateF 0x7CA323CE#32) = .next t := ⟨_, rfl⟩
theorem witness_step_ended : ∃ t, step State.reset = .next t := ⟨_, rfl⟩

/-- `LaunchPremisesSufficeForAStep`. -/
theorem witness_launch_step : (stateF 0x7CA323CE#32).cur.pc.toNat ≠ (stateF 0x7CA323CE#32).platform.progEnd ∧
    readBE (stateF 0x7CA323CE#32).byteAt (stateF 0x7CA323CE#32).cur.pc.toNat 4 = some 0x7CA323CE#32 := by decide

/-- `LaunchPremisesReachTheEnd`: the one word of the program is all there is ahead. -/
theorem witness_launch_run : (stateF 0x7CA323CE#32).platform.progEnd < 2 ^ 32 ∧
    ∀ a, 0x10000 ≤ a → a < (stateF 0x7CA323CE#32).platform.progEnd → a % 4 = 0 → a = 0x10000 := by
  refine ⟨by decide, fun a h1 h2 h3 => ?_⟩
  have e : (stateF 0x7CA323CE#32).platform.progEnd = 0x10004 := by decide
  omega

/-- Both agents at the end address. -/
def stateEnd : State := { stateV with cur := { agentF with pc := 0x00010004#32 } }

/-- `FinalRunsStayAsTheyAre`: a state that is final and has the invariant. -/
theorem witness_final : stateEnd.Final := by decide
theorem witness_final_inv : stateEnd.Inv where
  platform := by decide
  memWf := by decide
  memAdmitted := by decide
  memHeld := State.byteAt_isSome _
  pcLegal := by decide
  pendingStorable := by decide
  singleDrained := by decide
  resvRising := by decide
  resvLegal := by decide
  resvUntracked := by decide
  idsDistinct := by decide

/-- `LegalPcsAreAlwaysFetchable`, its last clause: a program that ends at 2^32, its agent at the last word. -/
def stateTop : State :=
  State.load { State.reset with cur := { Agent.reset with pc := 0xFFFFFFFC#32 } } 0xFFFFFFFC#32 [0x7C0003CE#32]

theorem witness_top_refused : step stateTop = .refused .pcOverflow := by rfl
theorem witness_top_inv : stateTop.Inv where
  platform := by decide
  memWf := by decide
  memAdmitted := by decide
  memHeld := State.byteAt_isSome _
  pcLegal := by decide
  pendingStorable := by decide
  singleDrained := by decide
  resvRising := by decide
  resvLegal := by decide
  resvUntracked := by decide
  idsDistinct := by decide

/-- `ArrivalsInAnyOrderEndAsTheAtomicStore`: sixteen choices for the sixteen writes. -/
theorem witness_arrivals : stateV.mem.wf ∧ stateV.cur.pending = [] ∧ stateV.others ≠ [] ∧
    nextField (exec (.stvxl 5 3 4) stateV) (fun t => t.cur.pending.length) = some (List.replicate 16 3).length ∧
    (nextField (exec (.stvxl 5 3 4) { stateV with others := [] }) (fun _ => ())).isSome = true := by decide

/-- V2, V3 and V5: the other agent's reservation on the stored granule is gone, that on another granule stays. -/
theorem test_reservations_V2_V3 :
    nextField (exec (.stvxl 5 3 4) { stateV with resv := [(1, 0x1000), (1, 0x1080)] }) (fun t => t.resv) = some [(1, 0x1080)] := by
  decide

end Sys2Proof.Tests
end

section
/-! SUPPORT. Proofs of the statements about memory and alignment (20_memory.md R20, R23). -/

namespace Sys2Proof.Machine

/-! ## Big-endian memory -/

/-- What was written is read back where the platform backs every byte of it (20_memory.md R20). -/
theorem readBE_view_writeBE {p : Platform} {addr n : Nat} (m : Memory) (val : BitVec (8 * n))
    (h : ∀ k < n, p.backs (addr + k) = true) : readBE (p.view (m.writeBE addr n val)) addr n = some val := by
  rw [readBE_eq_some]
  intro k hk
  rw [Platform.view_of_backs _ (h k hk), Memory.read_writeBE m addr val hk]

/-- Settles O32: each clause is the law of the operation it speaks of. -/
theorem memWriteAndMemReadAreBigEndianInverses : Obligations.MemWriteAndMemReadAreBigEndianInverses := by
  intro p m addr n val hn haddr
  refine ⟨fun k hk => Memory.read_writeBE m addr val hk, fun a ha => Memory.read_writeBE_other m addr val ha,
    fun hadm => readBE_view_writeBE m val fun k hk => ?_, readBE_eq_some _ addr n val⟩
  exact (Platform.backs_iff p _).2 ⟨by omega, hadm k hk⟩

/-! ## The effective address as a number -/

/-- Clearing the low four bits rounds down to a multiple of 16. -/
theorem toNat_and_not_low_four (x : DWord) : (x &&& ~~~(0xF#64)).toNat = x.toNat / 16 * 16 := by
  rw [show ~~~(0xF#64) = BitVec.allOnes 64 <<< 4 by decide, ← BitVec.shiftLeft_ushiftRight,
    BitVec.toNat_shiftLeft, BitVec.toNat_ushiftRight, Nat.shiftLeft_eq, Nat.shiftRight_eq_div_pow]
  have := x.isLt
  omega

/-- The base is the sum rounded down to a multiple of 16 and kept modulo 2^32 (40_vector_store.md R48). -/
theorem effectiveAddress_toNat (a b : DWord) : (effectiveAddress a b).toNat = (a + b).toNat / 16 * 16 % 2 ^ 32 := by
  rw [effectiveAddress, BitVec.toNat_setWidth, toNat_and_not_low_four]

/-- Sums that agree above bit 3 give one base. -/
theorem effectiveAddress_congr {a b c d : DWord} (h : (a + b).toNat / 16 = (c + d).toNat / 16) :
    effectiveAddress a b = effectiveAddress c d := by
  apply BitVec.eq_of_toNat_eq
  rw [effectiveAddress_toNat, effectiveAddress_toNat, h]

/-! ## What a store depends on -/

/-- `s` with other general registers and UNSET marks for the acting agent. -/
def State.withRegs (s : State) (g : Vector DWord 32) (u : List RegName) : State :=
  { s with cur := { s.cur with gpr := g, unset := u } }

/-- An outcome with its next state changed; a stop stays as it is. -/
def mapNext (f : State → State) : Host.Outcome State Fault Refusal → Host.Outcome State Fault Refusal
  | .next t => .next (f t)
  | .fault r => .fault r
  | .refused r => .refused r

section
variable (s : State) (g : Vector DWord 32) (u : List RegName) (base : Addr) (v : VWord)

@[simp] theorem State.withRegs_platform : (s.withRegs g u).platform = s.platform := rfl
@[simp] theorem State.withRegs_pc : (s.withRegs g u).cur.pc = s.cur.pc := rfl
@[simp] theorem State.withRegs_vrValue (r : VReg) : (s.withRegs g u).cur.vrValue r = s.cur.vrValue r := rfl

theorem State.performWrites_withRegs (ws : List Host.Cell) :
    (s.withRegs g u).performWrites ws = (s.performWrites ws).withRegs g u := by
  by_cases h : s.others.isEmpty <;> simp [State.performWrites, State.withRegs, h]

/-- What a store leaves apart from the general registers and the marks does not depend on them. -/
theorem State.afterStore_withRegs : (s.withRegs g u).afterStore base v = (s.afterStore base v).withRegs g u :=
  congrArg State.advancePc (State.performWrites_withRegs (s.clearReservations base) g u (laneWrites base v))

/-- The guards on the base read neither the general registers nor the marks. -/
theorem State.storeVector_withRegs :
    (s.withRegs g u).storeVector base v = mapNext (·.withRegs g u) (s.storeVector base v) := by
  simp only [State.storeVector, State.withRegs_platform, State.afterStore_withRegs]
  split
  · rfl
  · split <;> rfl

@[simp] theorem State.afterStore_unset : (s.afterStore base v).cur.unset = s.cur.unset := by
  simp [State.afterStore]

end

/-- A store reads the general registers and the marks only through its base and its first unset operand: where these are the same,
the outcome is the same but for them. -/
theorem storeIndexed_withRegs {s : State} {vs : VReg} {ra rb : GReg} {g : Vector DWord 32} {u : List RegName}
    (hbase : (s.withRegs g u).storeBase ra rb = s.storeBase ra rb)
    (hunset : (s.withRegs g u).cur.firstUnset (operandRegs vs ra rb) = s.cur.firstUnset (operandRegs vs ra rb)) :
    storeIndexed vs ra rb (s.withRegs g u) = mapNext (·.withRegs g u) (storeIndexed vs ra rb s) := by
  simp only [storeIndexed, hbase, hunset, State.storeVector_withRegs, State.withRegs_platform, State.withRegs_pc,
    State.withRegs_vrValue]
  split
  · rfl
  · split
    · rfl
    · cases s.cur.firstUnset (operandRegs vs ra rb) <;> rfl

/-- The same of both instructions. -/
theorem exec_withRegs {s : State} {i : Instr} {vs : VReg} {ra rb : GReg} {g : Vector DWord 32} {u : List RegName}
    (hi : i = .stvxl vs ra rb ∨ i = .stvxl128 vs ra rb)
    (hbase : (s.withRegs g u).storeBase ra rb = s.storeBase ra rb)
    (hunset : (s.withRegs g u).cur.firstUnset (operandRegs vs ra rb) = s.cur.firstUnset (operandRegs vs ra rb)) :
    exec i (s.withRegs g u) = mapNext (·.withRegs g u) (exec i s) := by
  rw [exec_eq_storeIndexed s hi, exec_eq_storeIndexed _ hi, storeIndexed_withRegs hbase hunset]

/-- An instruction that completes leaves the marks as they are. -/
theorem exec_next_unset {i : Instr} {s t : State} (h : exec i s = .next t) : t.cur.unset = s.cur.unset := by
  obtain ⟨vs, ra, rb, -, -, rfl⟩ := exec_next_cases h
  exact State.afterStore_unset s _ _

/-- Settles O14: the base is the sum rounded down, and a store reads the general registers only through it. -/
theorem lowFourBitsOfTheSumAffectNothing : Obligations.LowFourBitsOfTheSumAffectNothing := by
  refine ⟨fun s ra rb => ?_, fun s vs ra rb i g hi hsum => ?_⟩
  · simp only [State.storeBase, effectiveAddress_toNat, BitVec.toNat_setWidth]
    omega
  · have key : exec i (s.withRegs g s.cur.unset) = mapNext (·.withRegs g s.cur.unset) (exec i s) :=
      exec_withRegs hi (effectiveAddress_congr hsum) rfl
    refine ⟨fun t ht => key.trans ?_, fun f hf => key.trans ?_, fun r hr => key.trans ?_⟩
    · rw [ht, ← exec_next_unset ht]; rfl
    · rw [hf]; rfl
    · rw [hr]; rfl

end Sys2Proof.Machine
end

section
/-! SUPPORT. Proofs of the statements about the operand fields (30_encoding.md R39, R40, R41, R42). -/

namespace Sys2Proof.Machine

/-! ## The fields of a word that decodes -/

/-- The operands of a `stvxl` are the fields of its word (30_encoding.md R39, R40, R41). -/
theorem decodeWord_eq_stvxl {w : Word} {vs : VReg} {ra rb : GReg} (h : decodeWord w = some (.stvxl vs ra rb)) :
    vs = (fieldVs w).setWidth 7 ∧ ra = fieldRa w ∧ rb = fieldRb w := by
  unfold decodeWord at h
  split at h
  · cases h; exact ⟨rfl, rfl, rfl⟩
  · split at h <;> cases h

/-- The operands of a `stvxl128` are the fields of its word, VS the split one (30_encoding.md R39, R40, R42). -/
theorem decodeWord_eq_stvxl128 {w : Word} {vs : VReg} {ra rb : GReg} (h : decodeWord w = some (.stvxl128 vs ra rb)) :
    vs = (fieldVd128h w).setWidth 7 <<< 5 ||| (fieldVs w).setWidth 7 ∧ ra = fieldRa w ∧ rb = fieldRb w := by
  unfold decodeWord at h
  split at h
  · cases h
  · split at h
    · cases h; exact ⟨rfl, rfl, rfl⟩
    · cases h

/-- A field as a number: the word divided by the weight of the field's lowest bit, modulo the field's size. -/
theorem toNat_field (w : Word) (lo len : Nat) : (w.extractLsb' lo len).toNat = w.toNat / 2 ^ lo % 2 ^ len := by
  rw [BitVec.extractLsb'_toNat, Nat.shiftRight_eq_div_pow]

/-- The 5-bit field VS keeps its number as the number of a vector register. -/
theorem toNat_vs_stvxl (w : Word) : ((fieldVs w).setWidth 7).toNat = w.toNat / 2 ^ 21 % 32 := by
  rw [BitVec.toNat_setWidth, toNat_field]
  omega

/-- The two parts of the split field do not overlap, so that joining them adds their numbers. -/
theorem toNat_vs_stvxl128 (w : Word) :
    ((fieldVd128h w).setWidth 7 <<< 5 ||| (fieldVs w).setWidth 7).toNat =
      w.toNat / 2 ^ 2 % 4 * 32 + w.toNat / 2 ^ 21 % 32 := by
  have high : ((fieldVd128h w).setWidth 7 <<< 5).toNat = 2 ^ 5 * (w.toNat / 2 ^ 2 % 4) := by
    rw [BitVec.toNat_shiftLeft, BitVec.toNat_setWidth, toNat_field, Nat.shiftLeft_eq]
    omega
  rw [BitVec.toNat_or, high, toNat_vs_stvxl, ← Nat.two_pow_add_eq_or_of_lt (Nat.mod_lt _ (by decide))]
  omega

/-! ## What a store that can be done leaves -/

/-- Where a block is backed, each of its sixteen addresses is. -/
theorem Platform.backs_block {p : Platform} {base : Addr} {k : Nat} (h : p.admits base = true)
    (halign : base.toNat % 16 = 0) (hk : k < 16) : p.backs (base.toNat + k) = true := by
  have hlt := base.isLt
  refine (Platform.backs_iff p _).2 ⟨by omega, ?_⟩
  rw [Platform.admits_iff] at h ⊢
  have hblock : (BitVec.ofNat 32 (base.toNat + k)).toNat / 16 = base.toNat / 16 := by
    rw [BitVec.toNat_ofNat]
    omega
  rwa [hblock]

/-- The base of a store is the rounded and truncated sum (40_vector_store.md R48). -/
theorem State.storeBase_toNat (s : State) (ra rb : GReg) :
    (s.storeBase ra rb).toNat = ((s.cur.ra0 ra).toNat + (s.cur.gprValue rb).toNat) % 2 ^ 64 / 16 * 16 % 2 ^ 32 := by
  rw [State.storeBase, effectiveAddress_toNat, BitVec.toNat_add]

theorem State.storeBase_aligned (s : State) (ra rb : GReg) : (s.storeBase ra rb).toNat % 16 = 0 := by
  rw [State.storeBase_toNat]
  omega

@[simp] theorem State.afterStore_vr (s : State) (base : Addr) (v : VWord) : (s.afterStore base v).cur.vr = s.cur.vr := by
  simp [State.afterStore]

/-- A store that can be done completes, leaves the vector registers alone, and the agent then sees the lanes of VS at its base
(40_vector_store.md R49, R52). -/
theorem exec_stores_lanes {s : State} {i : Instr} {vs : VReg} {ra rb : GReg}
    (hi : i = .stvxl vs ra rb ∨ i = .stvxl128 vs ra rb) (h : s.CanStore vs ra rb) :
    ∃ t, exec i s = .next t ∧ t.cur.vr = s.cur.vr ∧
      ∀ k < 16, t.ownByte ((s.storeBase ra rb).toNat + k) = some (lane (s.cur.vrValue vs) k) := by
  have hadmits : s.platform.admits (s.storeBase ra rb) = true := by
    obtain ⟨-, -, -, hadmits, -⟩ := h
    exact hadmits
  refine ⟨_, (exec_eq_storeIndexed s hi).trans (storeIndexed_eq_next.2 ⟨h, rfl⟩), State.afterStore_vr _ _ _, fun k hk => ?_⟩
  exact State.afterStore_ownByte_lane s _ _ hk (Platform.backs_block hadmits (s.storeBase_aligned ra rb) hk)

/-- The value of a vector register under its number. -/
theorem Agent.vrValue_eq_of_toNat {ag : Agent} {vs : VReg} {n : Nat} (h : vs.toNat = n) (hn : n < 128) :
    ag.vrValue vs = ag.vr[n] := by
  subst h
  rfl

/-! ## VS -/

/-- Settles O5: the VS of the word is its 5-bit field, and the store writes the lanes of the register of that number. -/
theorem stvxlVsIsAFiveBitSource : Obligations.StvxlVsIsAFiveBitSource := by
  intro w vs ra rb hw
  have hvs : vs.toNat = w.toNat / 2 ^ 21 % 32 := by
    obtain ⟨rfl, -, -⟩ := decodeWord_eq_stvxl hw
    exact toNat_vs_stvxl w
  refine ⟨hvs, fun s hs => ?_⟩
  rw [← Agent.vrValue_eq_of_toNat hvs]
  exact exec_stores_lanes (.inl rfl) hs

/-- Settles O6: the same with the split field of `stvxl128`. -/
theorem stvxl128VsIsTheSplitNumber : Obligations.Stvxl128VsIsTheSplitNumber := by
  intro w vs ra rb hw
  have hvs : vs.toNat = w.toNat / 2 ^ 2 % 4 * 32 + w.toNat / 2 ^ 21 % 32 := by
    obtain ⟨rfl, -, -⟩ := decodeWord_eq_stvxl128 hw
    exact toNat_vs_stvxl128 w
  refine ⟨hvs, fun s hs => ?_⟩
  rw [← Agent.vrValue_eq_of_toNat hvs]
  exact exec_stores_lanes (.inr rfl) hs

/-! ## RA0 -/

@[simp] theorem Agent.ra0_zero (ag : Agent) : ag.ra0 0#5 = 0#64 := if_pos rfl

theorem Agent.ra0_of_ne_zero (ag : Agent) {ra : GReg} (h : ra ≠ 0#5) : ag.ra0 ra = ag.gprValue ra := if_neg h

/-- With field RA = 0 the base comes from RB alone. -/
theorem State.storeBase_ra_zero (s : State) (rb : GReg) : s.storeBase 0#5 rb = effectiveAddress 0#64 (s.cur.gprValue rb) := by
  rw [State.storeBase, Agent.ra0_zero]

/-- With field RA = 0 the operand registers are RB and VS only. -/
theorem operandRegs_ra_zero (vs : VReg) (rb : GReg) : operandRegs vs 0#5 rb = [.gpr rb, .vr vs] := rfl

/-- A write to a general register leaves every other one alone. -/
theorem State.withRegs_gprValue_other (s : State) (x : DWord) (u : List RegName) {n : Nat} (hn : n < 32) {r : GReg}
    (h : n ≠ r.toNat) : (s.withRegs (s.cur.gpr.set n x) u).cur.gprValue r = s.cur.gprValue r :=
  Vector.getElem_set_ne hn r.isLt h

/-- A mark on a register that is not among the ones read does not change which of them is found unset. -/
theorem State.withRegs_firstUnset_cons (s : State) (g : Vector DWord 32) {r : RegName} {rs : List RegName} (h : r ∉ rs) :
    (s.withRegs g (r :: s.cur.unset)).cur.firstUnset rs = s.cur.firstUnset rs := by
  refine List.find?_congr fun q hq => decide_eq_decide.2 ?_
  have hne : q ≠ r := fun e => h (e ▸ hq)
  exact List.mem_cons.trans (or_iff_right hne)

/-- Settles O11: with RA = 0, neither the base nor the search for an unset operand reads `r0`, so that another `r0`, set or not,
changes nothing but itself. -/
theorem raZeroIsTheConstantZero : Obligations.RaZeroIsTheConstantZero := by
  refine ⟨fun ag ra hra => ag.ra0_of_ne_zero hra, fun s rb => ?_, fun s vs rb i x hi hrb => ?_⟩
  · rw [State.storeBase_ra_zero, effectiveAddress, BitVec.zero_add, Agent.gprValue]
  · intro g u s'
    have hbase : (s.withRegs g u).storeBase 0#5 rb = s.storeBase 0#5 rb := by
      have hne : 0 ≠ rb.toNat := fun e => hrb (BitVec.eq_of_toNat_eq e.symm)
      rw [State.storeBase_ra_zero, State.storeBase_ra_zero, State.withRegs_gprValue_other s x u (by decide) hne]
    have hunset : (s.withRegs g u).cur.firstUnset (operandRegs vs 0#5 rb) = s.cur.firstUnset (operandRegs vs 0#5 rb) := by
      rw [operandRegs_ra_zero]
      exact State.withRegs_firstUnset_cons s g (by simpa using hrb.symm)
    have key : exec i s' = mapNext (·.withRegs g u) (exec i s) := exec_withRegs hi hbase hunset
    refine ⟨fun t ht => ?_, fun f hf => ?_, fun r hr => ?_⟩
    · rw [key, ht]; rfl
    · rw [key, hf]; rfl
    · rw [key, hr]; rfl

/-! ## RB -/

/-- RB of both forms is the field `w{16..20}`. -/
theorem decodeWord_rb {w : Word} {vs : VReg} {ra rb : GReg}
    (h : decodeWord w = some (.stvxl vs ra rb) ∨ decodeWord w = some (.stvxl128 vs ra rb)) : rb = fieldRb w := by
  rcases h with h | h
  · obtain ⟨-, -, hrb⟩ := decodeWord_eq_stvxl h
    exact hrb
  · obtain ⟨-, -, hrb⟩ := decodeWord_eq_stvxl128 h
    exact hrb

/-- Settles O12: RB is a plain field and a plain register, and the base is the rounded sum with the whole of it. -/
theorem rbReadsItsRegisterWithNoSpecialCase : Obligations.RbReadsItsRegisterWithNoSpecialCase := by
  refine ⟨fun w vs ra rb h => ?_, fun ag rb => rfl, fun s vs ra rb i hi hs => ?_⟩
  · rw [decodeWord_rb h]
    exact toNat_field w 11 5
  · obtain ⟨t, ht, -, hlanes⟩ := exec_stores_lanes hi hs
    rw [State.storeBase_toNat] at hlanes
    exact ⟨t, ht, hlanes⟩

end Sys2Proof.Machine
end

section
/-! SUPPORT. Proofs of the statements about the vector store family (40_vector_store.md R48, R49, R52). -/

namespace Sys2Proof.Machine

/-! ## The other forms of the effective address -/

/-- Clearing and truncating commute: the mask may be applied to the truncated sum (40_vector_store.md R48). -/
theorem effectiveAddress_eq_truncated_sum_and_mask (a b : DWord) :
    effectiveAddress a b = ((a + b).setWidth 32 &&& 0xFFFFFFF0#32) := by
  have mask : (~~~(0xF#64)).setWidth 32 = 0xFFFFFFF0#32 := by decide
  rw [effectiveAddress, BitVec.setWidth_and, mask]

/-- Settles O13: the masked sum as a number, and as a bit vector truncated after or before adding. -/
theorem effectiveAddressIsTheMaskedTruncatedSum : Obligations.EffectiveAddressIsTheMaskedTruncatedSum := by
  intro s ra rb a b
  have masked : s.storeBase ra rb = ((a + b).setWidth 32 &&& 0xFFFFFFF0#32) :=
    effectiveAddress_eq_truncated_sum_and_mask a b
  refine ⟨s.storeBase_toNat ra rb, masked, ?_⟩
  rw [masked, BitVec.setWidth_add a b (by decide)]

/-! ## What a store leaves, field by field -/

section
variable (s : State) (base : Addr) (v : VWord)

@[simp] theorem State.afterStore_pc : (s.afterStore base v).cur.pc = s.cur.pc + 4#32 := by
  simp [State.afterStore]

@[simp] theorem State.afterStore_gpr : (s.afterStore base v).cur.gpr = s.cur.gpr := by
  simp [State.afterStore]

@[simp] theorem State.afterStore_id : (s.afterStore base v).cur.id = s.cur.id := by
  simp [State.afterStore]

@[simp] theorem State.afterStore_others : (s.afterStore base v).others = s.others := by
  simp [State.afterStore]

@[simp] theorem State.afterStore_resv : (s.afterStore base v).resv = (s.clearReservations base).resv := by
  simp [State.afterStore]

theorem State.afterStore_mem :
    (s.afterStore base v).mem = ((s.clearReservations base).performWrites (laneWrites base v)).mem := rfl

/-- The agent's memory after a store is that of one big-endian write of sixteen bytes (20_memory.md R26, 40_vector_store.md R49). -/
theorem State.afterStore_ownMemory_eq_writeBE :
    (s.afterStore base v).ownMemory = s.ownMemory.writeBE base.toNat 16 v := by
  rw [State.afterStore_ownMemory, laneWrites_eq_cellsBE, Memory.writeBE]

/-- Where nothing older is on its way to it, a byte of the shared memory outside the block stays (40_vector_store.md R52). -/
theorem State.afterStore_mem_read_other {a : Nat} (hpending : s.cur.pending = [])
    (ha : a < base.toNat ∨ base.toNat + 16 ≤ a) : (s.afterStore base v).mem.read a = s.mem.read a := by
  rw [State.afterStore_mem]
  by_cases hothers : s.others = []
  · obtain ⟨hmem, -⟩ := State.performWrites_single (s.clearReservations base) (laneWrites base v) hothers
    rw [hmem, State.clearReservations_cur, hpending, List.nil_append, State.clearReservations_mem]
    exact Memory.read_laneWrites_other _ _ _ ha
  · obtain ⟨hmem, -⟩ := State.performWrites_several (s.clearReservations base) (laneWrites base v) hothers
    rw [hmem, State.clearReservations_mem]

/-! ## A store reads nothing from memory -/

/-- `s` with another shared memory. -/
def State.withMem (m : Memory) : State := { s with mem := m }

/-- What a store makes of the acting agent does not depend on memory. -/
theorem State.afterStore_withMem_cur (m : Memory) : ((s.withMem m).afterStore base v).cur = (s.afterStore base v).cur := by
  by_cases h : s.others.isEmpty <;>
    simp [State.afterStore, State.performWrites, State.clearReservations, State.withMem, h]

/-- What a store makes of the reservation table does not depend on memory. -/
theorem State.afterStore_withMem_resv (m : Memory) :
    ((s.withMem m).afterStore base v).resv = (s.afterStore base v).resv := by
  rw [State.afterStore_resv, State.afterStore_resv]
  rfl

end

/-! ## The data effect and the frame -/

/-- The state an instruction answers is the one its store leaves. -/
theorem eq_afterStore_of_exec {s t : State} {i : Instr} {vs : VReg} {ra rb : GReg}
    (hi : i = .stvxl vs ra rb ∨ i = .stvxl128 vs ra rb) (h : exec i s = .next t) :
    t = s.afterStore (s.storeBase ra rb) (s.cur.vrValue vs) := by
  rw [exec_eq_storeIndexed s hi, storeIndexed_eq_next] at h
  obtain ⟨-, rfl⟩ := h
  rfl

/-- The data effect both instructions share (40_vector_store.md R49, R51). -/
theorem exec_stores_sixteen_lanes {s : State} {i : Instr} {vs : VReg} {ra rb : GReg}
    (hi : i = .stvxl vs ra rb ∨ i = .stvxl128 vs ra rb) (h : s.CanStore vs ra rb) :
    let base := (s.storeBase ra rb).toNat
    let v := s.cur.vrValue vs
    ∃ t, exec i s = .next t ∧
      t.cur.pc = s.cur.pc + 4#32 ∧
      (∀ k < 16, t.ownByte (base + k) = some (lane v k)) ∧
      (∀ a, (a < base ∨ base + 16 ≤ a) → t.ownByte a = s.ownByte a) ∧
      (∀ a, t.ownMemory.read a = (s.ownMemory.writeBE base 16 v).read a) ∧
      (∀ m : Memory, ∃ u, exec i (s.withMem m) = .next u ∧
        u.cur = t.cur ∧ u.resv = t.resv ∧ ∀ k < 16, u.ownByte (base + k) = t.ownByte (base + k)) := by
  obtain ⟨t, ht, -, hlanes⟩ := exec_stores_lanes hi h
  obtain rfl := eq_afterStore_of_exec hi ht
  refine ⟨_, ht, State.afterStore_pc s _ _, hlanes, fun a ha => State.afterStore_ownByte_other s _ _ ha,
    fun a => by rw [State.afterStore_ownMemory_eq_writeBE], fun m => ?_⟩
  have hm : (s.withMem m).CanStore vs ra rb := h
  obtain ⟨u, hu, -, hlanes'⟩ := exec_stores_lanes hi hm
  obtain rfl := eq_afterStore_of_exec hi hu
  exact ⟨_, hu, State.afterStore_withMem_cur s _ _ m, State.afterStore_withMem_resv s _ _ m,
    fun k hk => (hlanes' k hk).trans (hlanes k hk).symm⟩

/-- Settles O16: the shared data effect, for `stvxl`. -/
theorem stvxlStoresTheSixteenLanes : Obligations.StvxlStoresTheSixteenLanes :=
  fun _ _ _ _ h => exec_stores_sixteen_lanes (.inl rfl) h

/-- Settles O17: the shared data effect, for `stvxl128`. -/
theorem stvxl128StoresTheSixteenLanes : Obligations.Stvxl128StoresTheSixteenLanes :=
  fun _ _ _ _ h => exec_stores_sixteen_lanes (.inr rfl) h

/-- Settles O18: the state answered is the one the store leaves, and each field of that is known. -/
theorem storeChangesOnlyBytesPcAndReservations : Obligations.StoreChangesOnlyBytesPcAndReservations := by
  intro s t vs ra rb i hi ht
  obtain rfl := eq_afterStore_of_exec hi ht
  refine ⟨State.afterStore_gpr s _ _, State.afterStore_vr s _ _, State.afterStore_unset s _ _, State.afterStore_id s _ _,
    State.afterStore_others s _ _, State.afterStore_platform s _ _, ?_, fun a ha => ⟨?_, fun hpending => ?_⟩⟩
  · rw [State.afterStore_resv]
    exact State.clearReservations_resv_sublist s _
  · exact State.afterStore_ownByte_other s _ _ ha
  · exact State.afterStore_mem_read_other s _ _ hpending ha

end Sys2Proof.Machine
end

section
/-! SUPPORT. What every step keeps: the run invariant, the program's bytes, the registers, the parameters, the reservation table
(70_reset_and_hazards.md, 20_memory.md sections 5 to 9). -/

namespace Sys2Proof.Machine

/-! ## Between two steps -/

/-- An arrival performs some of the agent's pending writes and leaves some of them. -/
theorem Agent.arrive_eq (ag : Agent) (m : Memory) (pick : Nat) :
    ∃ ps ws, ps.Sublist ag.pending ∧ ws ⊆ ag.pending ∧
      ag.arrive m pick = ({ ag with pending := ps }, m.writeAll ws) := by
  rcases ag.arrive_cases m pick with ⟨-, h⟩ | ⟨us, w, vs, hp, -, h⟩
  · exact ⟨ag.pending, [], List.Sublist.refl _, List.nil_subset _, h⟩
  · refine ⟨us ++ vs, [w], ?_, ?_, h⟩
    · rw [hp]
      exact List.Sublist.append_left (List.sublist_cons_self w vs) us
    · rw [hp]
      simp

/-- An agent apart from what it has on its way to memory. -/
def Agent.idle (ag : Agent) : Agent := { ag with pending := [] }

/-- An agent with some of its pending writes left. -/
def Agent.Drains (ag ag' : Agent) : Prop := ∃ ps, ps.Sublist ag.pending ∧ ag' = { ag with pending := ps }

theorem Agent.Drains.refl (ag : Agent) : ag.Drains ag := ⟨ag.pending, List.Sublist.refl _, rfl⟩

theorem Agent.Drains.trans {a b c : Agent} (hab : a.Drains b) (hbc : b.Drains c) : a.Drains c := by
  obtain ⟨ps, hps, rfl⟩ := hab
  obtain ⟨qs, hqs, rfl⟩ := hbc
  exact ⟨qs, hqs.trans hps, rfl⟩

/-- What a state can become between two steps (20_memory.md R26, R29; 60_exceptions.md R67): the agents change places, and pending
writes of theirs are performed. -/
structure State.Between (s u : State) : Prop where
  platform : u.platform = s.platform
  resv : u.resv = s.resv
  agentsPerm : (u.agents.map Agent.idle).Perm (s.agents.map Agent.idle)
  drains : ∀ ag' ∈ u.agents, ∃ ag ∈ s.agents, ag.Drains ag'
  mem : ∃ ws, u.mem = s.mem.writeAll ws ∧ ∀ w ∈ ws, ∃ ag ∈ s.agents, w ∈ ag.pending

/-- A free value is drawn, and the agents may change places. -/
theorem State.Between.of_perm {s u : State} (hplatform : u.platform = s.platform) (hresv : u.resv = s.resv)
    (hagents : u.agents.Perm s.agents) (hmem : u.mem = s.mem) : s.Between u where
  platform := hplatform
  resv := hresv
  agentsPerm := hagents.map _
  drains ag hag := ⟨ag, hagents.subset hag, Agent.Drains.refl ag⟩
  mem := ⟨[], hmem, fun _ hw => absurd hw List.not_mem_nil⟩

/-- One agent's arrival is performed, wherever that agent stands. -/
theorem State.Between.of_arrive {s u : State} {us vs : List Agent} {ag : Agent} {pick : Nat}
    (hplatform : u.platform = s.platform) (hresv : u.resv = s.resv) (hs : s.agents = us ++ ag :: vs)
    (hu : u.agents = us ++ (ag.arrive s.mem pick).1 :: vs) (hmem : u.mem = (ag.arrive s.mem pick).2) : s.Between u := by
  obtain ⟨ps, ws, hps, hws, harrive⟩ := ag.arrive_eq s.mem pick
  rw [harrive] at hu hmem
  have hag : ag ∈ s.agents := by rw [hs]; exact List.mem_append_right us List.mem_cons_self
  refine ⟨hplatform, hresv, ?_, fun x hx => ?_, ws, hmem, fun w hw => ⟨ag, hag, hws hw⟩⟩
  · rw [hu, hs, List.map_append, List.map_append]
    exact List.Perm.refl _
  · rw [hu, List.mem_append, List.mem_cons] at hx
    rw [hs]
    rcases hx with hx | rfl | hx
    · exact ⟨x, List.mem_append_left _ hx, Agent.Drains.refl x⟩
    · exact ⟨ag, List.mem_append_right us List.mem_cons_self, ps, hps, rfl⟩
    · exact ⟨x, List.mem_append_right us (List.mem_cons_of_mem _ hx), Agent.Drains.refl x⟩

theorem State.Between.refl (s : State) : s.Between s := .of_perm rfl rfl (List.Perm.refl _) rfl

theorem State.Between.trans {s t u : State} (hst : s.Between t) (htu : t.Between u) : s.Between u := by
  obtain ⟨ws, hws, hwsPending⟩ := hst.mem
  obtain ⟨xs, hxs, hxsPending⟩ := htu.mem
  refine ⟨htu.platform.trans hst.platform, htu.resv.trans hst.resv, htu.agentsPerm.trans hst.agentsPerm, fun c hc => ?_,
    ws ++ xs, by rw [hxs, hws, Memory.writeAll_append], fun w hw => ?_⟩
  · obtain ⟨b, hb, hbc⟩ := htu.drains c hc
    obtain ⟨a, ha, hab⟩ := hst.drains b hb
    exact ⟨a, ha, hab.trans hbc⟩
  · rcases List.mem_append.1 hw with hw | hw
    · exact hwsPending w hw
    · obtain ⟨b, hb, hwb⟩ := hxsPending w hw
      obtain ⟨a, ha, ps, hps, rfl⟩ := hst.drains b hb
      exact ⟨a, ha, hps.subset hwb⟩

theorem State.between_arriveOne (s : State) : s.Between s.arriveOne := by
  rcases s.arriveOne_cases with h | ⟨pick, h⟩ | ⟨pick, us, ag, vs, ho, h⟩ <;> rw [h]
  · exact .of_perm rfl rfl (List.Perm.refl _) rfl
  · exact .of_arrive (us := []) rfl rfl rfl rfl rfl
  · exact .of_arrive (us := s.cur :: us) rfl rfl (by rw [State.agents, ho]; rfl) rfl rfl

theorem State.between_handOver (s : State) : s.Between s.handOver := by
  rcases s.handOver_cases with h | ⟨us, ag, vs, ho, h⟩ <;> rw [h]
  · exact .of_perm rfl rfl (List.Perm.refl _) rfl
  · refine .of_perm rfl rfl ?_ rfl
    rw [State.agents, State.agents, ho]
    exact (List.perm_middle.cons ag).trans ((List.Perm.swap s.cur ag (us ++ vs)).trans (List.perm_middle.symm.cons s.cur))

/-- Whatever happens between two steps is of this kind. -/
theorem State.between_afterStep (s : State) : s.Between s.afterStep :=
  State.afterStep_induct s (.refl s) (fun _ _ h => h.trans (.of_perm rfl rfl (List.Perm.refl _) rfl))
    (fun u h => h.trans u.between_arriveOne) (fun u h => h.trans u.between_handOver)

/-- What is read off an agent apart from its pending writes is read off the same agents between two steps. -/
theorem State.Between.map_perm {α : Type} {s u : State} (h : s.Between u) (f : Agent → α) (hf : ∀ ag, f ag.idle = f ag) :
    (u.agents.map f).Perm (s.agents.map f) := by
  have key := h.agentsPerm.map f
  rwa [List.map_map, List.map_map, show f ∘ Agent.idle = f from funext hf] at key

theorem State.Between.others_length {s u : State} (h : s.Between u) : u.others.length = s.others.length := by
  simpa [State.agents] using h.agentsPerm.length_eq

/-! ## Storable writes -/

/-- Memory as a run keeps it: in canonical form, nothing listed that is not admitted. -/
def Platform.Keeps (p : Platform) (m : Memory) : Prop := m.wf ∧ ∀ c ∈ m, p.admits (BitVec.ofNat 32 c.1) = true

/-- Storable writes keep memory so. -/
theorem Platform.Keeps.writeAll {p : Platform} {m : Memory} {ws : List Host.Cell} (h : p.Keeps m)
    (hws : ∀ w ∈ ws, p.Storable w.1) : p.Keeps (m.writeAll ws) := by
  obtain ⟨hwf, hadm⟩ := h
  refine ⟨Memory.writeAll_wf hwf fun w hw => (hws w hw).1, fun c hc => ?_⟩
  rcases Memory.mem_of_mem_writeAll hc with hc | hc
  · obtain ⟨-, hadmits, -⟩ := hws c hc
    exact hadmits
  · exact hadm c hc

/-- A byte that storable writes change is storable. -/
theorem Platform.storable_of_read_writeAll_ne {p : Platform} {m : Memory} {ws : List Host.Cell} {a : Nat}
    (hws : ∀ w ∈ ws, p.Storable w.1) (h : (m.writeAll ws).read a ≠ m.read a) : p.Storable a := by
  by_contra ha
  exact h (Memory.read_writeAll_other m fun w hw e => ha (e ▸ hws w hw))

/-- The writes of a store whose guards do not fire are storable (20_memory.md R28, R32). -/
theorem State.CanStore.laneWrites_storable {s : State} {vs : VReg} {ra rb : GReg} (h : s.CanStore vs ra rb) (v : VWord) :
    ∀ w ∈ laneWrites (s.storeBase ra rb) v, s.platform.Storable w.1 := by
  obtain ⟨-, -, -, hadm, hover⟩ := h
  intro w hw
  obtain ⟨k, hk, rfl⟩ := List.mem_map.1 hw
  have hk : k < 16 := List.mem_range.1 hk
  obtain ⟨hlt, hadmits⟩ := (Platform.backs_iff _ _).1 (Platform.backs_block hadm (s.storeBase_aligned ra rb) hk)
  exact ⟨hlt, hadmits, (Platform.overlapsProgram_eq_false _ _).1 hover _ (by omega) (by omega)⟩

/-! ## The invariant -/

theorem State.Inv.keeps {s : State} (h : s.Inv) : s.platform.Keeps s.mem := ⟨h.memWf, h.memAdmitted⟩

/-- What is on its way to memory is storable. -/
theorem State.Inv.storable_of_pending {s : State} (h : s.Inv) {ws : List Host.Cell}
    (hws : ∀ w ∈ ws, ∃ ag ∈ s.agents, w ∈ ag.pending) : ∀ w ∈ ws, s.platform.Storable w.1 := by
  intro w hw
  obtain ⟨ag, hag, hwp⟩ := hws w hw
  exact h.pendingStorable ag hag w hwp

/-- The parts of the invariant that speak of what a step changes are enough for the state after it. -/
theorem State.Inv.of_step {s u : State} (h : s.Inv) (hplatform : u.platform = s.platform) (hresv : u.resv.Sublist s.resv)
    (hmem : s.platform.Keeps u.mem) (hids : (u.agents.map Agent.id).Perm (s.agents.map Agent.id))
    (hpc : ∀ ag ∈ u.agents, ag.PcLegal s.platform) (hpending : ∀ ag ∈ u.agents, ∀ c ∈ ag.pending, s.platform.Storable c.1)
    (hdrained : u.others = [] → u.cur.pending = []) : u.Inv := by
  rw [← hplatform] at hmem hpc hpending
  obtain ⟨hwf, hadm⟩ := hmem
  refine ⟨hplatform ▸ h.platform, hwf, hadm, u.byteAt_isSome, hpc, hpending, hdrained, h.resvRising.sublist hresv,
    fun r hr => ?_, fun hoff => ?_, hids.nodup_iff.2 h.idsDistinct⟩
  · obtain ⟨hid, hg⟩ := h.resvLegal r (hresv.subset hr)
    exact ⟨hids.mem_iff.2 hid, hplatform ▸ hg⟩
  · rw [hplatform] at hoff
    exact List.eq_nil_of_sublist_nil (h.resvUntracked hoff ▸ hresv)

/-- What happens between two steps keeps the invariant. -/
theorem State.Between.inv {s u : State} (hsu : s.Between u) (h : s.Inv) : u.Inv := by
  obtain ⟨ws, hmem, hws⟩ := hsu.mem
  refine h.of_step hsu.platform (hsu.resv ▸ List.Sublist.refl _) (hmem ▸ h.keeps.writeAll (h.storable_of_pending hws))
    (hsu.map_perm Agent.id fun _ => rfl) (fun b hb => ?_) (fun b hb c hc => ?_) (fun hothers => ?_)
  · obtain ⟨a, ha, ps, -, rfl⟩ := hsu.drains b hb
    exact h.pcLegal a ha
  · obtain ⟨a, ha, ps, hps, rfl⟩ := hsu.drains b hb
    exact h.pendingStorable a ha c (hps.subset hc)
  · have hsingle : s.others = [] := List.eq_nil_of_length_eq_zero (hsu.others_length.symm.trans (by rw [hothers]; rfl))
    obtain ⟨a, ha, ps, hps, hcur⟩ := hsu.drains u.cur List.mem_cons_self
    rw [State.agents, hsingle, List.mem_singleton] at ha
    rw [ha, h.singleDrained hsingle] at hps
    rw [hcur]
    exact List.eq_nil_of_sublist_nil hps

/-- The writes a store performs in the shared memory, or leaves pending, are storable. -/
theorem State.Inv.store_writes_storable {s : State} (h : s.Inv) {vs : VReg} {ra rb : GReg} (hc : s.CanStore vs ra rb)
    (v : VWord) :
    ∀ w ∈ s.cur.pending ++ laneWrites (s.storeBase ra rb) v, s.platform.Storable w.1 := by
  intro w hw
  rcases List.mem_append.1 hw with hw | hw
  · exact h.pendingStorable s.cur List.mem_cons_self w hw
  · exact hc.laneWrites_storable v w hw

/-- With one agent a store's writes are performed after the pending ones. -/
theorem State.afterStore_single {s : State} (h : s.others = []) (base : Addr) (v : VWord) :
    (s.afterStore base v).mem = s.mem.writeAll (s.cur.pending ++ laneWrites base v) ∧ (s.afterStore base v).cur.pending = [] :=
  (s.clearReservations base).performWrites_single (laneWrites base v) h

/-- With several agents a store's writes join the pending ones. -/
theorem State.afterStore_several {s : State} (h : s.others ≠ []) (base : Addr) (v : VWord) :
    (s.afterStore base v).mem = s.mem ∧ (s.afterStore base v).cur.pending = s.cur.pending ++ laneWrites base v :=
  (s.clearReservations base).performWrites_several (laneWrites base v) h

/-- Where a store's writes go: with one agent into memory, with several among the pending ones. -/
theorem State.afterStore_mem_pending (s : State) (base : Addr) (v : VWord) :
    (s.others = [] ∧ (s.afterStore base v).mem = s.mem.writeAll (s.cur.pending ++ laneWrites base v) ∧
        (s.afterStore base v).cur.pending = []) ∨
      (s.others ≠ [] ∧ (s.afterStore base v).mem = s.mem ∧
        (s.afterStore base v).cur.pending = s.cur.pending ++ laneWrites base v) := by
  by_cases h : s.others = []
  · exact .inl ⟨h, State.afterStore_single h base v⟩
  · exact .inr ⟨h, State.afterStore_several h base v⟩

/-- At an aligned address inside the program other than the top of the address space, the next word's address is legal again. -/
theorem Agent.PcLegal.next {p : Platform} {ag ag' : Agent} (hp : p.Legal) (haligned : ag.pc.toNat % 4 = 0)
    (hin : p.inProgram ag.pc.toNat = true) (htop : ag.pc ≠ 0xFFFFFFFC#32) (hpc : ag'.pc = ag.pc + 4#32) :
    ag'.PcLegal p ∧ ag'.pc.toNat = ag.pc.toNat + 4 := by
  obtain ⟨hbase, -, -⟩ := hp
  rw [Platform.inProgram_iff] at hin
  have hne : ag.pc.toNat ≠ 0xFFFFFFFC := fun e => htop (BitVec.eq_of_toNat_eq e)
  have hlt := ag.pc.isLt
  have hnext : ag'.pc.toNat = ag.pc.toNat + 4 := by
    rw [hpc, BitVec.toNat_add, BitVec.toNat_ofNat]
    omega
  unfold Agent.PcLegal Platform.progEnd at *
  omega

/-- A store at a word of the program keeps the invariant. -/
theorem State.Inv.afterStore {s : State} (h : s.Inv) {vs : VReg} {ra rb : GReg} (hc : s.CanStore vs ra rb)
    (haligned : s.cur.pc.toNat % 4 = 0) (hin : s.platform.inProgram s.cur.pc.toNat = true) (v : VWord) :
    (s.afterStore (s.storeBase ra rb) v).Inv := by
  generalize hbase : s.storeBase ra rb = base
  have hstorable := hbase ▸ h.store_writes_storable hc v
  have hpc : (s.afterStore base v).cur.PcLegal s.platform := by
    obtain ⟨-, htop, -, -, -⟩ := hc
    exact (Agent.PcLegal.next h.platform haligned hin htop (State.afterStore_pc s base v)).1
  have hagents : (s.afterStore base v).agents = (s.afterStore base v).cur :: s.others := by
    rw [State.agents, State.afterStore_others]
  have hwrites := s.afterStore_mem_pending base v
  refine h.of_step (State.afterStore_platform s base v) ?_ ?_ ?_ ?_ ?_ ?_
  · rw [State.afterStore_resv]
    exact s.clearReservations_resv_sublist base
  · rcases hwrites with ⟨-, hmem, -⟩ | ⟨-, hmem, -⟩ <;> rw [hmem]
    · exact h.keeps.writeAll hstorable
    · exact h.keeps
  · rw [hagents, List.map_cons, State.afterStore_id]
    exact List.Perm.refl _
  · rw [hagents]
    exact List.forall_mem_cons.2 ⟨hpc, fun ag hag => h.pcLegal ag (List.mem_cons_of_mem _ hag)⟩
  · rw [hagents]
    refine List.forall_mem_cons.2 ⟨?_, fun ag hag => h.pendingStorable ag (List.mem_cons_of_mem _ hag)⟩
    rcases hwrites with ⟨-, -, hpend⟩ | ⟨-, -, hpend⟩ <;> rw [hpend]
    · exact fun c hc => absurd hc List.not_mem_nil
    · exact hstorable
  · rw [State.afterStore_others]
    rcases hwrites with ⟨-, -, hpend⟩ | ⟨hseveral, -, -⟩
    · exact fun _ => hpend
    · exact fun hsingle => absurd hsingle hseveral

/-! ## What a step does -/

/-- A step that answers a next state let an ended agent pass or ran one store at a word of the program, and then came what happens
between two steps. -/
theorem step_next_between {s t : State} (h : step s = .next t) :
    (s.cur.ended s.platform = true ∧ s.Between t) ∨
      ∃ vs ra rb, s.cur.pc.toNat % 4 = 0 ∧ s.cur.ended s.platform = false ∧ s.platform.inProgram s.cur.pc.toNat = true ∧
        s.CanStore vs ra rb ∧ (s.afterStore (s.storeBase ra rb) (s.cur.vrValue vs)).Between t := by
  rcases step_next_cases h with ⟨hf, rfl⟩ | ⟨i, vs, ra, rb, hf, -, hc, rfl⟩
  · obtain ⟨-, hended⟩ := State.fetch_eq_ended hf
    exact .inl ⟨hended, s.between_afterStep⟩
  · obtain ⟨haligned, hended, hin, -⟩ := State.fetch_eq_run hf
    exact .inr ⟨vs, ra, rb, haligned, hended, hin, hc, State.between_afterStep _⟩

/-- Settles O37: the store keeps the invariant, and so does what happens between steps. -/
theorem everyStepKeepsTheRunInvariant : Obligations.EveryStepKeepsTheRunInvariant := by
  intro s t h hstep
  rcases step_next_between hstep with ⟨-, hb⟩ | ⟨vs, ra, rb, haligned, -, hin, hc, hb⟩
  · exact hb.inv h
  · exact hb.inv (h.afterStore hc haligned hin _)

/-- A byte that changes between two steps is storable. -/
theorem State.Between.storable_of_changed {s u : State} (hsu : s.Between u) (h : s.Inv) {a : Nat}
    (ha : u.mem.read a ≠ s.mem.read a) : s.platform.Storable a := by
  obtain ⟨ws, hmem, hws⟩ := hsu.mem
  rw [hmem] at ha
  exact Platform.storable_of_read_writeAll_ne (h.storable_of_pending hws) ha

/-- A byte of the shared memory that a store changes is storable. -/
theorem State.Inv.storable_of_store_changed {s : State} (h : s.Inv) {vs : VReg} {ra rb : GReg} (hc : s.CanStore vs ra rb)
    {v : VWord} {a : Nat} (ha : (s.afterStore (s.storeBase ra rb) v).mem.read a ≠ s.mem.read a) : s.platform.Storable a := by
  rcases s.afterStore_mem_pending (s.storeBase ra rb) v with ⟨-, hmem, -⟩ | ⟨-, hmem, -⟩ <;> rw [hmem] at ha
  · exact Platform.storable_of_read_writeAll_ne (h.store_writes_storable hc v) ha
  · exact absurd rfl ha

/-- A byte that a step changes is storable. -/
theorem State.Inv.storable_of_step_changed {s t : State} (h : s.Inv) (hstep : step s = .next t) {a : Nat}
    (ha : t.mem.read a ≠ s.mem.read a) : s.platform.Storable a := by
  rcases step_next_between hstep with ⟨-, hb⟩ | ⟨vs, ra, rb, haligned, -, hin, hc, hb⟩
  · exact hb.storable_of_changed h ha
  · by_cases hstore : (s.afterStore (s.storeBase ra rb) (s.cur.vrValue vs)).mem.read a = s.mem.read a
    · rw [← hstore] at ha
      exact State.afterStore_platform s _ _ ▸ hb.storable_of_changed (h.afterStore hc haligned hin _) ha
    · exact h.storable_of_store_changed hc hstore

/-- No step changes a byte of the program. -/
theorem State.Inv.step_read_program {s t : State} (h : s.Inv) (hstep : step s = .next t) {a : Nat}
    (ha : s.platform.inProgram a = true) : t.mem.read a = s.mem.read a := by
  by_contra hne
  obtain ⟨-, -, hout⟩ := h.storable_of_step_changed hstep hne
  rw [ha] at hout
  cases hout

/-- Settles O38: every byte that changes is one of a storable write. -/
theorem onlyStorableBytesEverChange : Obligations.OnlyStorableBytesEverChange :=
  fun _ _ h hstep => ⟨fun _ ha => h.step_read_program hstep ha, fun _ ha => h.storable_of_step_changed hstep ha⟩

/-- A store moves the acting agent's pc and its pending writes, and nothing else of any agent. -/
theorem State.afterStore_agents_map {α : Type} (s : State) (base : Addr) (v : VWord) (f : Agent → α)
    (hf : ∀ ag, f ag.idle = f ag) :
    (s.afterStore base v).agents.map f = f { s.cur with pc := s.cur.pc + 4#32 } :: s.others.map f := by
  have hcur : (s.afterStore base v).cur.idle = Agent.idle { s.cur with pc := s.cur.pc + 4#32 } := by
    simp only [Agent.idle, State.afterStore_gpr, State.afterStore_vr, State.afterStore_unset, State.afterStore_id,
      State.afterStore_pc]
  rw [State.agents, List.map_cons, State.afterStore_others, ← hf, hcur, hf]

/-- Settles O39: what is read off the agents apart from pc and pending writes stays. -/
theorem noStepWritesARegister : Obligations.NoStepWritesARegister := by
  intro s t hstep
  rcases step_next_between hstep with ⟨-, hb⟩ | ⟨vs, ra, rb, -, -, -, -, hb⟩
  · exact hb.map_perm _ fun _ => rfl
  · refine (hb.map_perm _ fun _ => rfl).trans ?_
    rw [State.afterStore_agents_map]
    · exact List.Perm.refl _
    · exact fun _ => rfl

/-- Settles O40: neither the store nor what happens between steps touches them. -/
theorem noStepChangesTheParameters : Obligations.NoStepChangesTheParameters := by
  intro s t hstep
  rcases step_next_between hstep with ⟨-, hb⟩ | ⟨vs, ra, rb, -, -, -, -, hb⟩
  · exact ⟨hb.platform, hb.others_length⟩
  · exact ⟨hb.platform.trans (State.afterStore_platform s _ _),
      hb.others_length.trans (congrArg List.length (State.afterStore_others s _ _))⟩

/-- Without a reservation table a clear leaves the pairs as they are. -/
theorem State.clearReservations_resv_untracked (s : State) (base : Addr) (h : s.platform.reservationTracking = false) :
    (s.clearReservations base).resv = s.resv := by
  simp [State.clearReservations, h]

/-- Settles O41: only the store's clear changes the table, and it leaves pairs out. -/
theorem noStepMakesAReservation : Obligations.NoStepMakesAReservation := by
  intro s t hstep
  rcases step_next_between hstep with ⟨-, hb⟩ | ⟨vs, ra, rb, -, -, -, -, hb⟩
  · exact ⟨hb.resv ▸ List.Sublist.refl _, fun _ => hb.resv⟩
  · rw [hb.resv, State.afterStore_resv]
    exact ⟨s.clearReservations_resv_sublist _, s.clearReservations_resv_untracked _⟩

/-- Settles O42: an ended agent passes with its pc, any other moves its pc by the store's 4. -/
theorem stepMovesOnlyTheActingAgentsPcByFour : Obligations.StepMovesOnlyTheActingAgentsPcByFour := by
  intro s t hstep
  rcases step_next_between hstep with ⟨hended, hb⟩ | ⟨vs, ra, rb, -, hended, -, -, hb⟩
  · rw [if_pos hended]
    exact hb.map_perm _ fun _ => rfl
  · rw [hended]
    refine (hb.map_perm _ fun _ => rfl).trans ?_
    rw [State.afterStore_agents_map]
    · exact List.Perm.refl _
    · exact fun _ => rfl

end Sys2Proof.Machine
end

section
/-! SUPPORT. Proofs of the statements about the encoding (30_encoding.md): a word and its fields are numbers, so that a field is a
quotient and a remainder and a word the sum of its fields. -/

namespace Sys2Proof.Machine

/-! ## Words as numbers -/

/-- A number joined to a word at a place where the word is clear is added there. -/
theorem toNat_or_shiftLeft {x y : Word} {n d : Nat} (hn : n + d ≤ 32) (hy : y.toNat < 2 ^ d)
    (hx : x.toNat / 2 ^ n % 2 ^ d = 0) : (x ||| y <<< n).toNat = x.toNat + y.toNat * 2 ^ n := by
  have disjoint : x &&& y <<< n = 0#32 := by
    refine Laws.OpcodePattern.mask_and_shifted d n x y hy fun j _ hj hjd => ?_
    have bit := congrArg (Nat.testBit · (j - n)) hx
    simp only [Nat.testBit_mod_two_pow, Nat.testBit_div_two_pow, Nat.zero_testBit, Nat.sub_add_cancel hj] at bit
    show x.toNat.testBit j = false
    simpa only [show j - n < d by omega, decide_true, Bool.true_and] using bit
  have fits : y.toNat * 2 ^ n < 2 ^ 32 := calc
    y.toNat * 2 ^ n < 2 ^ d * 2 ^ n := Nat.mul_lt_mul_of_pos_right hy (Nat.two_pow_pos n)
    _ = 2 ^ (n + d) := by rw [← Nat.pow_add, Nat.add_comm]
    _ ≤ 2 ^ 32 := Nat.pow_le_pow_right (by decide) hn
  rw [← BitVec.add_eq_or_of_and_eq_zero _ _ disjoint, BitVec.toNat_add_of_and_eq_zero disjoint, BitVec.toNat_shiftLeft,
    Nat.shiftLeft_eq, Nat.mod_eq_of_lt fits]

theorem toNat_and_31 (x : Word) : (x &&& 31#32).toNat = x.toNat % 32 :=
  Nat.and_two_pow_sub_one_eq_mod x.toNat 5

theorem toNat_and_3 (x : Word) : (x &&& 3#32).toNat = x.toNat % 4 :=
  Nat.and_two_pow_sub_one_eq_mod x.toNat 2

/-- What a mask of one field leaves of a word. -/
theorem toNat_and_mask {m : Word} {lo len : Nat} (w : Word) (hm : m.toNat = (2 ^ len - 1) * 2 ^ lo) :
    (w &&& m).toNat = w.toNat / 2 ^ lo % 2 ^ len * 2 ^ lo := by
  rw [BitVec.toNat_and, hm]
  apply Nat.eq_of_testBit_eq
  intro j
  rw [Nat.testBit_and, Nat.testBit_mul_two_pow, Nat.testBit_mul_two_pow, Nat.testBit_two_pow_sub_one,
    Nat.testBit_mod_two_pow, Nat.testBit_div_two_pow]
  by_cases hj : lo ≤ j
  · rw [Nat.sub_add_cancel hj, Bool.and_left_comm, Bool.and_comm (w.toNat.testBit j)]
  · simp [hj]

/-- What a mask of two fields leaves is the sum of what each leaves. -/
theorem toNat_and_or_masks {m n : Word} (w : Word) (h : m &&& n = 0#32) :
    (w &&& (m ||| n)).toNat = (w &&& m).toNat + (w &&& n).toNat := by
  have disjoint : (w &&& m) &&& (w &&& n) = 0#32 := by
    rw [BitVec.and_assoc, BitVec.and_comm m, BitVec.and_assoc, BitVec.and_comm n, h, BitVec.and_zero, BitVec.and_zero]
  rw [BitVec.and_or_distrib_left, ← BitVec.add_eq_or_of_and_eq_zero _ _ disjoint, BitVec.toNat_add_of_and_eq_zero disjoint]

/-! ## The word of an instruction -/

/-- Operand fields joined to fixed bits that are clear in `w[25:11]`. -/
theorem toNat_or_operands {c v : Word} (ra rb : GReg) (hc : c.toNat / 2 ^ 11 % 2 ^ 15 = 0) (hv : v.toNat < 2 ^ 5) :
    (c ||| v <<< 21 ||| ra.setWidth 32 <<< 16 ||| rb.setWidth 32 <<< 11).toNat =
      c.toNat + v.toNat * 2 ^ 21 + ra.toNat * 2 ^ 16 + rb.toNat * 2 ^ 11 := by
  have hra := ra.isLt
  have hrb := rb.isLt
  have num (r : GReg) : (r.setWidth 32).toNat = r.toNat := BitVec.toNat_setWidth_of_le (by decide)
  have withVs : (c ||| v <<< 21).toNat = c.toNat + v.toNat * 2 ^ 21 :=
    toNat_or_shiftLeft (d := 5) (by decide) hv (by omega)
  have withRa : (c ||| v <<< 21 ||| ra.setWidth 32 <<< 16).toNat = c.toNat + v.toNat * 2 ^ 21 + ra.toNat * 2 ^ 16 := by
    rw [toNat_or_shiftLeft (d := 5) (by decide) (by rw [num]; omega) (by omega), withVs, num]
  rw [toNat_or_shiftLeft (d := 5) (by decide) (by rw [num]; omega) (by omega), withRa, num]

/-- The five low bits of a vector register's number. -/
theorem toNat_vs_and_31 (vs : VReg) : (vs.setWidth 32 &&& 31#32).toNat = vs.toNat % 32 := by
  rw [toNat_and_31, BitVec.toNat_setWidth_of_le (by decide)]

theorem encode_stvxl_toNat (vs : VReg) (ra rb : GReg) (hvs : vs.toNat < 32) :
    (encode (.stvxl vs ra rb)).toNat =
      31 * 2 ^ 26 + vs.toNat * 2 ^ 21 + ra.toNat * 2 ^ 16 + rb.toNat * 2 ^ 11 + 487 * 2 ^ 1 + 0 := by
  have fixed : (0x7C0003CE#32).toNat = 0x7C0003CE := rfl
  rw [encode, toNat_or_operands ra rb (by decide) (Laws.OpcodePattern.low5_lt _), toNat_vs_and_31, fixed]
  omega

theorem encode_stvxl128_toNat (vs : VReg) (ra rb : GReg) :
    (encode (.stvxl128 vs ra rb)).toNat =
      4 * 2 ^ 26 + vs.toNat % 32 * 2 ^ 21 + ra.toNat * 2 ^ 16 + rb.toNat * 2 ^ 11 + 60 * 2 ^ 4 + vs.toNat / 32 * 2 ^ 2 + 3 := by
  have fixed : (0x100003C3#32).toNat = 0x100003C3 := rfl
  have high : (vs.setWidth 32 >>> 5).toNat = vs.toNat / 32 := by
    rw [BitVec.toNat_ushiftRight, BitVec.toNat_setWidth_of_le (by decide), Nat.shiftRight_eq_div_pow]
  have lower := toNat_or_operands (c := 0x100003C3#32) ra rb (by decide) (Laws.OpcodePattern.low5_lt (vs.setWidth 32))
  rw [toNat_vs_and_31, fixed] at lower
  rw [encode, toNat_or_shiftLeft (d := 2) (by decide) (Laws.OpcodePattern.high2_lt vs) (by omega), lower, high]
  omega

/-- Settles O4: each field is joined at a place where the word so far is clear. -/
theorem encodedWordIsTheSumOfItsFields : Obligations.EncodedWordIsTheSumOfItsFields :=
  ⟨encode_stvxl_toNat, encode_stvxl128_toNat⟩

/-! ## The decoder on numbers -/

/-- The fixed fields of form X (30_encoding.md R36). -/
theorem stvxl_fields_iff (w : Word) :
    (fieldOpcd w = 31#6 ∧ fieldXo10 w = 487#10 ∧ fieldRc w = 0#1) ↔ w.toNat / 2 ^ 26 = 31 ∧ w.toNat % 2 ^ 11 = 0x3CE := by
  have := w.isLt
  simp only [← BitVec.toNat_inj, toNat_field, BitVec.toNat_ofNat]
  omega

/-- The fixed fields of form VX128_1 (30_encoding.md R38). -/
theorem stvxl128_fields_iff (w : Word) :
    (fieldOpcd w = 4#6 ∧ fieldXo7 w = 60#7 ∧ fieldLow2 w = 3#2) ↔
      w.toNat / 2 ^ 26 = 4 ∧ w.toNat / 2 ^ 4 % 2 ^ 7 = 60 ∧ w.toNat % 4 = 3 := by
  have := w.isLt
  simp only [← BitVec.toNat_inj, toNat_field, BitVec.toNat_ofNat]
  omega

/-- The decoder with its tests as facts about the word's number. -/
theorem decodeWord_eq (w : Word) :
    decodeWord w =
      if w.toNat / 2 ^ 26 = 31 ∧ w.toNat % 2 ^ 11 = 0x3CE then
        some (.stvxl ((fieldVs w).setWidth 7) (fieldRa w) (fieldRb w))
      else if w.toNat / 2 ^ 26 = 4 ∧ w.toNat / 2 ^ 4 % 2 ^ 7 = 60 ∧ w.toNat % 4 = 3 then
        some (.stvxl128 ((fieldVd128h w).setWidth 7 <<< 5 ||| (fieldVs w).setWidth 7) (fieldRa w) (fieldRb w))
      else none := by
  simp only [decodeWord, stvxl_fields_iff, stvxl128_fields_iff]

/-- A word decodes to a `stvxl` exactly when it is its encoding and VS fits its field. -/
theorem decodeWord_eq_some_stvxl_iff (w : Word) (vs : VReg) (ra rb : GReg) :
    decodeWord w = some (.stvxl vs ra rb) ↔ vs.toNat < 32 ∧ encode (.stvxl vs ra rb) = w := by
  have hw := w.isLt
  constructor
  · intro h
    have hfixed : w.toNat / 2 ^ 26 = 31 ∧ w.toNat % 2 ^ 11 = 0x3CE := by
      rw [decodeWord_eq] at h
      split at h
      · assumption
      · split at h <;> cases h
    obtain ⟨rfl, rfl, rfl⟩ := decodeWord_eq_stvxl h
    have hvs : ((fieldVs w).setWidth 7).toNat < 32 := by rw [toNat_vs_stvxl]; omega
    refine ⟨hvs, BitVec.eq_of_toNat_eq ?_⟩
    rw [encode_stvxl_toNat _ _ _ hvs, toNat_vs_stvxl, toNat_field, toNat_field]
    omega
  · rintro ⟨hvs, h⟩
    have hra := ra.isLt
    have hrb := rb.isLt
    have num := encode_stvxl_toNat vs ra rb hvs
    rw [h] at num
    rw [decodeWord_eq, if_pos (by omega)]
    congr 2 <;> apply BitVec.eq_of_toNat_eq
    · rw [toNat_vs_stvxl]; omega
    · rw [toNat_field]; omega
    · rw [toNat_field]; omega

/-- The digits of a number in the places of form VX128_1's fields, and the number as their sum. -/
theorem eq_sum_of_vx128_fields_iff {n o v a b x h l : Nat} (hv : v < 32) (ha : a < 32) (hb : b < 32) (hx : x < 128) (hh : h < 4)
    (hl : l < 4) :
    n = o * 2 ^ 26 + v * 2 ^ 21 + a * 2 ^ 16 + b * 2 ^ 11 + x * 2 ^ 4 + h * 2 ^ 2 + l ↔
      n / 2 ^ 26 = o ∧ n / 2 ^ 21 % 32 = v ∧ n / 2 ^ 16 % 32 = a ∧ n / 2 ^ 11 % 32 = b ∧ n / 2 ^ 4 % 128 = x ∧
        n / 2 ^ 2 % 4 = h ∧ n % 4 = l := by
  have d4 : n / 2 ^ 4 = n / 2 ^ 2 / 4 := (Nat.div_div_eq_div_mul n (2 ^ 2) 4).symm
  have d11 : n / 2 ^ 11 = n / 2 ^ 4 / 128 := (Nat.div_div_eq_div_mul n (2 ^ 4) 128).symm
  have d16 : n / 2 ^ 16 = n / 2 ^ 11 / 32 := (Nat.div_div_eq_div_mul n (2 ^ 11) 32).symm
  have d21 : n / 2 ^ 21 = n / 2 ^ 16 / 32 := (Nat.div_div_eq_div_mul n (2 ^ 16) 32).symm
  have d26 : n / 2 ^ 26 = n / 2 ^ 21 / 32 := (Nat.div_div_eq_div_mul n (2 ^ 21) 32).symm
  rw [d26, d21, d16, d11, d4]
  constructor
  · intro hn
    have e2 : n / 2 ^ 2 = ((((o * 32 + v) * 32 + a) * 32 + b) * 128 + x) * 4 + h := by omega
    have e4 : n / 2 ^ 2 / 4 = (((o * 32 + v) * 32 + a) * 32 + b) * 128 + x := by omega
    omega
  · omega
/-- A word decodes to a `stvxl128` exactly when it is its encoding. -/
theorem decodeWord_eq_some_stvxl128_iff (w : Word) (vs : VReg) (ra rb : GReg) :
    decodeWord w = some (.stvxl128 vs ra rb) ↔ encode (.stvxl128 vs ra rb) = w := by
  constructor
  · intro h
    have hfixed : w.toNat / 2 ^ 26 = 4 ∧ w.toNat / 2 ^ 4 % 2 ^ 7 = 60 ∧ w.toNat % 4 = 3 := by
      rw [decodeWord_eq] at h
      split at h
      · cases h
      · split at h
        · assumption
        · cases h
    obtain ⟨rfl, rfl, rfl⟩ := decodeWord_eq_stvxl128 h
    obtain ⟨hopcd, hxo, hlow⟩ := hfixed
    apply BitVec.eq_of_toNat_eq
    rw [encode_stvxl128_toNat, toNat_vs_stvxl128, toNat_field, toNat_field, eq_comm,
      eq_sum_of_vx128_fields_iff (by omega) (by omega) (by omega) (by decide) (by omega) (by decide)]
    exact ⟨hopcd, by omega, rfl, rfl, hxo, by omega, hlow⟩
  · intro h
    have hvs := vs.isLt
    have num := encode_stvxl128_toNat vs ra rb
    rw [h, eq_sum_of_vx128_fields_iff (by omega) ra.isLt rb.isLt (by decide) (by omega) (by decide)] at num
    obtain ⟨hopcd, hlowVs, hra, hrb, hxo, hhighVs, hlow⟩ := num
    rw [decodeWord_eq, if_neg (by omega), if_pos ⟨hopcd, hxo, hlow⟩]
    congr 2 <;> apply BitVec.eq_of_toNat_eq
    · rw [toNat_vs_stvxl128]; omega
    · rw [toNat_field]; exact hra
    · rw [toNat_field]; exact hrb

/-- The words that decode are the encodings of the well-formed instructions. -/
theorem decodeWord_eq_some_iff (w : Word) (i : Instr) : decodeWord w = some i ↔ i.WellFormed ∧ encode i = w := by
  cases i with
  | stvxl vs ra rb => exact decodeWord_eq_some_stvxl_iff w vs ra rb
  | stvxl128 vs ra rb => exact (decodeWord_eq_some_stvxl128_iff w vs ra rb).trans (iff_of_eq (true_and _)).symm

/-- Settles O1: the encoding's number has the fixed fields of its form, and its operand fields are the operands. -/
theorem encodeThenDecodeGivesTheInstruction : Obligations.EncodeThenDecodeGivesTheInstruction :=
  fun i hi => (decodeWord_eq_some_iff _ i).2 ⟨hi, rfl⟩

/-- Settles O2: a word with the fixed fields of a form is the sum of its fields. -/
theorem decodeThenEncodeGivesTheWord : Obligations.DecodeThenEncodeGivesTheWord :=
  fun w i h => (decodeWord_eq_some_iff w i).1 h

/-! ## Match and mask -/

/-- The mask of form X leaves the opcode and the eleven low bits. -/
theorem toNat_and_stvxl_mask (w : Word) :
    (w &&& 0xFC0007FF#32).toNat = w.toNat / 2 ^ 26 * 2 ^ 26 + w.toNat % 2 ^ 11 := by
  have hw := w.isLt
  rw [show 0xFC0007FF#32 = 0xFC000000#32 ||| 0x7FF#32 by decide, toNat_and_or_masks w (by decide),
    toNat_and_mask (lo := 26) (len := 6) w (by decide), toNat_and_mask (lo := 0) (len := 11) w (by decide)]
  omega

/-- The mask of form VX128_1 leaves the opcode, XO and the two low bits. -/
theorem toNat_and_stvxl128_mask (w : Word) :
    (w &&& 0xFC0007F3#32).toNat = w.toNat / 2 ^ 26 * 2 ^ 26 + w.toNat / 2 ^ 4 % 2 ^ 7 * 2 ^ 4 + w.toNat % 4 := by
  have hw := w.isLt
  rw [show 0xFC0007F3#32 = 0xFC000000#32 ||| 0x7F0#32 ||| 3#32 by decide, toNat_and_or_masks w (by decide),
    toNat_and_or_masks w (by decide), toNat_and_mask (lo := 26) (len := 6) w (by decide),
    toNat_and_mask (lo := 4) (len := 7) w (by decide), toNat_and_3]
  omega

/-- The mask of opcode and XO of form VX128_1, without the low bits. -/
theorem toNat_and_opcd_xo7_mask (w : Word) :
    (w &&& 0xFC0007F0#32).toNat = w.toNat / 2 ^ 26 * 2 ^ 26 + w.toNat / 2 ^ 4 % 2 ^ 7 * 2 ^ 4 := by
  have hw := w.isLt
  rw [show 0xFC0007F0#32 = 0xFC000000#32 ||| 0x7F0#32 by decide, toNat_and_or_masks w (by decide),
    toNat_and_mask (lo := 26) (len := 6) w (by decide), toNat_and_mask (lo := 4) (len := 7) w (by decide)]
  omega

theorem stvxl_mask_iff (w : Word) :
    w &&& 0xFC0007FF#32 = 0x7C0003CE#32 ↔ w.toNat / 2 ^ 26 = 31 ∧ w.toNat % 2 ^ 11 = 0x3CE := by
  rw [← BitVec.toNat_inj, toNat_and_stvxl_mask, show (0x7C0003CE#32).toNat = 0x7C0003CE from rfl]
  omega

theorem stvxl128_mask_iff (w : Word) :
    w &&& 0xFC0007F3#32 = 0x100003C3#32 ↔
      w.toNat / 2 ^ 26 = 4 ∧ w.toNat / 2 ^ 4 % 2 ^ 7 = 60 ∧ w.toNat % 4 = 3 := by
  rw [← BitVec.toNat_inj, toNat_and_stvxl128_mask, show (0x100003C3#32).toNat = 0x100003C3 from rfl]
  omega

/-- A 5-bit field taken out by shifting and masking. -/
theorem ushiftRight_and_31 (w : Word) (n : Nat) : w >>> n &&& 31#32 = (w.extractLsb' n 5).setWidth 32 := by
  apply BitVec.eq_of_toNat_eq
  rw [toNat_and_31, BitVec.toNat_setWidth, toNat_field, BitVec.toNat_ushiftRight, Nat.shiftRight_eq_div_pow]
  omega

/-- The 2-bit field taken out by shifting and masking. -/
theorem ushiftRight_and_3 (w : Word) (n : Nat) : w >>> n &&& 3#32 = (w.extractLsb' n 2).setWidth 32 := by
  apply BitVec.eq_of_toNat_eq
  rw [toNat_and_3, BitVec.toNat_setWidth, toNat_field, BitVec.toNat_ushiftRight, Nat.shiftRight_eq_div_pow]
  omega

/-- The split field joined in 32 bits and in 7. -/
theorem setWidth_split_field (h : BitVec 2) (l : BitVec 5) :
    (h.setWidth 32 <<< 5 ||| l.setWidth 32).setWidth 7 = h.setWidth 7 <<< 5 ||| l.setWidth 7 := by
  rw [BitVec.setWidth_or, BitVec.setWidth_setWidth_of_le _ (by decide)]
  congr 1
  apply BitVec.eq_of_toNat_eq
  have := h.isLt
  simp only [BitVec.toNat_setWidth, BitVec.toNat_shiftLeft, Nat.shiftLeft_eq]
  omega

/-- Settles O3: each mask test is the test of the same fields, and the operands are the same fields. -/
theorem decodeSelectsByMatchAndMask : Obligations.DecodeSelectsByMatchAndMask := by
  intro w
  simp only [decodeWord_eq, stvxl_mask_iff, stvxl128_mask_iff, ushiftRight_and_31, ushiftRight_and_3, setWidth_split_field]
  simp only [BitVec.setWidth_setWidth_of_le _ (show 7 ≤ 32 by decide), BitVec.setWidth_setWidth_of_le _ (show 5 ≤ 32 by decide),
    BitVec.setWidth_eq]

/-- Settles O7: the fixed bits of the neighbours are those of neither form. -/
theorem recordFormAndReservedLowBitsDoNotDecode : Obligations.RecordFormAndReservedLowBitsDoNotDecode := by
  refine ⟨fun w h => ?_, fun w h hlow => ?_⟩
  · have num := congrArg BitVec.toNat h
    rw [toNat_and_stvxl_mask, show (0x7C0003CF#32).toNat = 0x7C0003CF from rfl] at num
    rw [decodeWord_eq, if_neg (by omega), if_neg (by omega)]
  · have num := congrArg BitVec.toNat h
    rw [toNat_and_opcd_xo7_mask, show (0x100003C0#32).toNat = 0x100003C0 from rfl] at num
    have low : w.toNat % 4 ≠ 3 := fun e => hlow (BitVec.eq_of_toNat_eq ((toNat_and_3 w).trans e))
    rw [decodeWord_eq, if_neg (by omega), if_neg (by omega)]

/-- Settles O8: each word is closed, and the decoder computes. -/
theorem sampleWordsDecodeAsListed : Obligations.SampleWordsDecodeAsListed := by
  unfold Obligations.SampleWordsDecodeAsListed
  decide

/-! ## The bytes of a word -/

/-- The word of four bytes, as a number. -/
theorem wordOfBytes_toNat (b0 b1 b2 b3 : Byte) :
    (wordOfBytes b0 b1 b2 b3).toNat = b0.toNat * 2 ^ 24 + b1.toNat * 2 ^ 16 + b2.toNat * 2 ^ 8 + b3.toNat := by
  have h0 := b0.isLt
  have h1 := b1.isLt
  have h2 := b2.isLt
  have h3 := b3.isLt
  have num (b : Byte) : (b.setWidth 32).toNat = b.toNat := BitVec.toNat_setWidth_of_le (by decide)
  have top : (b0.setWidth 32 <<< 24).toNat = b0.toNat * 2 ^ 24 := by
    rw [BitVec.toNat_shiftLeft, num, Nat.shiftLeft_eq]
    omega
  have two := toNat_or_shiftLeft (x := b0.setWidth 32 <<< 24) (y := b1.setWidth 32) (n := 16) (d := 8) (by decide)
    (by rw [num]; omega) (by omega)
  rw [top, num] at two
  have three := toNat_or_shiftLeft (x := b0.setWidth 32 <<< 24 ||| b1.setWidth 32 <<< 16) (y := b2.setWidth 32) (n := 8) (d := 8)
    (by decide) (by rw [num]; omega) (by omega)
  rw [two, num] at three
  rw [wordOfBytes, ← BitVec.shiftLeft_zero (b3.setWidth 32),
    toNat_or_shiftLeft (d := 8) (by decide) (by rw [num]; omega) (by omega), three, num]
  omega

/-- The bytes of a word, most significant first, are the word's. -/
theorem wordOfBytes_extract (w : Word) :
    wordOfBytes (w.extractLsb' 24 8) (w.extractLsb' 16 8) (w.extractLsb' 8 8) (w.extractLsb' 0 8) = w := by
  have := w.isLt
  apply BitVec.eq_of_toNat_eq
  rw [wordOfBytes_toNat]
  simp only [toNat_field]
  omega

/-- Settles O9: the decoder puts the word together again. -/
theorem decodeTakesBytesBigEndian : Obligations.DecodeTakesBytesBigEndian := by
  refine fun w rest => ⟨fun i h => ?_, fun h => ?_⟩ <;> rw [decode, wordOfBytes_extract, h]

/-! ## Assembler lines -/

theorem assembleRa0_eq_some_iff (o : AsmOperand) (ra : GReg) : assembleRa0 o = some ra ↔ asmRa0 ra = o := by
  have hra := ra.isLt
  unfold asmRa0
  cases o with
  | zero =>
    by_cases h : ra = 0#5
    · simp [assembleRa0, h]
    · simp [assembleRa0, h, eq_comm]
  | greg n =>
    have hnum : BitVec.ofNat 5 n = ra ↔ n % 32 = ra.toNat := by rw [← BitVec.toNat_inj, BitVec.toNat_ofNat]
    by_cases h : ra = 0#5
    · subst h
      simp only [assembleRa0, Option.ite_none_right_eq_some, Option.some.injEq, hnum, if_pos, reduceCtorEq, iff_false]
      rintro ⟨hn, e⟩
      rw [BitVec.toNat_ofNat] at e
      omega
    · have hpos : ra.toNat ≠ 0 := fun e => h (BitVec.eq_of_toNat_eq e)
      simp only [assembleRa0, Option.ite_none_right_eq_some, Option.some.injEq, hnum, if_neg h, AsmOperand.greg.injEq]
      omega
  | vreg n =>
    simp only [assembleRa0, reduceCtorEq, false_iff]
    split <;> nofun

theorem assembleRb_eq_some_iff (o : AsmOperand) (rb : GReg) : assembleRb o = some rb ↔ .greg rb.toNat = o := by
  have hrb := rb.isLt
  cases o with
  | greg n =>
    simp only [assembleRb, Option.ite_none_right_eq_some, Option.some.injEq, AsmOperand.greg.injEq, ← BitVec.toNat_inj,
      BitVec.toNat_ofNat]
    omega
  | zero => simp [assembleRb]
  | vreg n => simp [assembleRb]

theorem assembleVs_eq_some_iff (m : Mnemonic) (o : AsmOperand) (vs : VReg) :
    assembleVs m o = some vs ↔ vs.toNat < m.vsCount ∧ .vreg vs.toNat = o := by
  have hvs := vs.isLt
  have hcount : m.vsCount ≤ 128 := by cases m <;> decide
  cases o with
  | vreg n =>
    simp only [assembleVs, Option.ite_none_right_eq_some, Option.some.injEq, AsmOperand.vreg.injEq, ← BitVec.toNat_inj,
      BitVec.toNat_ofNat]
    omega
  | zero => simp [assembleVs]
  | greg n => simp [assembleVs]

/-- The instruction of a mnemonic and its operands. -/
def Mnemonic.instr : Mnemonic → VReg → GReg → GReg → Instr
  | .stvxl => .stvxl
  | .stvxl128 => .stvxl128

/-- A line assembles exactly when each of its slots does. -/
theorem assemble_eq_some_iff (l : AsmLine) (i : Instr) :
    assemble l = some i ↔ ∃ vs ra rb, assembleVs l.mnemonic l.vs = some vs ∧ assembleRa0 l.ra0 = some ra ∧
      assembleRb l.rb = some rb ∧ l.mnemonic.instr vs ra rb = i := by
  unfold assemble
  constructor
  · intro h
    split at h
    · next vs ra rb hvs hra hrb =>
      refine ⟨vs, ra, rb, hvs, hra, hrb, ?_⟩
      split at h <;> next hm => rw [hm]; exact Option.some.inj h
    · cases h
  · rintro ⟨vs, ra, rb, hvs, hra, hrb, rfl⟩
    rw [hvs, hra, hrb]
    cases l.mnemonic <;> rfl

/-- A line assembles to the well-formed instruction whose line it is, and to no other. -/
theorem assemble_eq_some_iff_disassemble (l : AsmLine) (i : Instr) :
    assemble l = some i ↔ i.WellFormed ∧ disassemble i = l := by
  obtain ⟨m, v, a, b⟩ := l
  simp only [assemble_eq_some_iff, assembleVs_eq_some_iff, assembleRa0_eq_some_iff, assembleRb_eq_some_iff]
  constructor
  · rintro ⟨vs, ra, rb, ⟨hvs, rfl⟩, rfl, rfl, rfl⟩
    cases m with
    | stvxl => exact ⟨hvs, rfl⟩
    | stvxl128 => exact ⟨trivial, rfl⟩
  · rintro ⟨hwf, hl⟩
    cases i with
    | stvxl vs ra rb => cases hl; exact ⟨vs, ra, rb, ⟨hwf, rfl⟩, rfl, rfl, rfl⟩
    | stvxl128 vs ra rb => cases hl; exact ⟨vs, ra, rb, ⟨vs.isLt, rfl⟩, rfl, rfl, rfl⟩

/-- Settles O10: slot by slot, a line and an instruction determine each other. -/
theorem assemblerLinesAreTheInstructions : Obligations.AssemblerLinesAreTheInstructions :=
  ⟨fun i hi => (assemble_eq_some_iff_disassemble _ i).2 ⟨hi, rfl⟩, fun l i h => (assemble_eq_some_iff_disassemble l i).1 h⟩

/-! ## One effect of two encodings -/

/-- Settles O23: the two words are the encodings of two instructions with the same operands, and both are the one store. -/
theorem bothEncodingsOfALowRegisterHaveOneEffect : Obligations.BothEncodingsOfALowRegisterHaveOneEffect := by
  intro vs ra rb s
  have hvs := vs.isLt
  have low : (vs.setWidth 7).toNat = vs.toNat := BitVec.toNat_setWidth_of_le (by decide)
  have vsField : (vs.setWidth 7).setWidth 32 &&& 31#32 = vs.setWidth 32 := by
    apply BitVec.eq_of_toNat_eq
    rw [toNat_and_31, BitVec.toNat_setWidth, low, BitVec.toNat_setWidth]
    omega
  have high : ((vs.setWidth 7).setWidth 32 >>> 5) <<< 2 = 0#32 := by
    apply BitVec.eq_of_toNat_eq
    rw [BitVec.toNat_shiftLeft, BitVec.toNat_ushiftRight, BitVec.toNat_setWidth, low, Nat.shiftRight_eq_div_pow,
      Nat.shiftLeft_eq, BitVec.toNat_ofNat]
    omega
  refine ⟨.stvxl (vs.setWidth 7) ra rb, .stvxl128 (vs.setWidth 7) ra rb, ?_, ?_, by simp, ?_⟩
  · rw [decodeWord_eq_some_stvxl_iff, low, encode, vsField]
    exact ⟨hvs, rfl⟩
  · rw [decodeWord_eq_some_stvxl128_iff, encode, vsField, high, BitVec.or_zero]
  · rw [exec_eq_storeIndexed s (.inl rfl), exec_eq_storeIndexed s (.inr rfl)]

end Sys2Proof.Machine
end

section
/-! SUPPORT. Proofs of the statements about what a store leaves and what stops it (20_memory.md, 40_vector_store.md R55,
60_exceptions.md). -/

namespace Sys2Proof.Machine

/-! ## Addresses -/

theorem effectiveAddress_aligned (a b : DWord) : (effectiveAddress a b).toNat % 16 = 0 := by
  rw [effectiveAddress_toNat]
  omega

/-- Settles O15: the base is a multiple of 16, and so is 2^32. -/
theorem storeStaysInOneAlignedBlock : Obligations.StoreStaysInOneAlignedBlock := by
  intro a b k hk
  have haligned := effectiveAddress_aligned a b
  have hlt := (effectiveAddress a b).isLt
  omega

/-- Settles O34: `Admit` reads an address through its block only. -/
theorem admitIsConstantOnAlignedBlocks : Obligations.AdmitIsConstantOnAlignedBlocks := by
  intro p a b h
  rw [Platform.admits, Platform.admits, h]

/-- Something is seen at an address exactly where the platform backs it. -/
theorem Platform.exists_view_eq_some_iff (p : Platform) (m : Memory) (a : Nat) :
    (∃ b, p.view m a = some b) ↔ a < 2 ^ 32 ∧ p.admits (BitVec.ofNat 32 a) = true := by
  simp only [Platform.view_eq_some, exists_and_left, exists_eq', and_true, Platform.backs_iff]

/-- Settles O49: both are views of some memory. -/
theorem memoryHoldsAByteExactlyWhereAdmitted : Obligations.MemoryHoldsAByteExactlyWhereAdmitted :=
  fun s a => ⟨s.platform.exists_view_eq_some_iff s.mem a, s.platform.exists_view_eq_some_iff s.ownMemory a⟩

/-! ## What a store that can be done leaves -/

/-- An instruction none of whose guards fires answers the state its store leaves. -/
theorem State.CanStore.exec {s : State} {i : Instr} {vs : VReg} {ra rb : GReg} (h : s.CanStore vs ra rb)
    (hi : i = .stvxl vs ra rb ∨ i = .stvxl128 vs ra rb) :
    exec i s = .next (s.afterStore (s.storeBase ra rb) (s.cur.vrValue vs)) := by
  rw [exec_eq_storeIndexed s hi, storeIndexed_eq_next]
  exact ⟨h, rfl⟩

/-- An instruction that answers a next state had no guard that fires. -/
theorem canStore_of_exec {s t : State} {i : Instr} {vs : VReg} {ra rb : GReg}
    (hi : i = .stvxl vs ra rb ∨ i = .stvxl128 vs ra rb) (h : exec i s = .next t) : s.CanStore vs ra rb := by
  rw [exec_eq_storeIndexed s hi, storeIndexed_eq_next] at h
  obtain ⟨hc, -⟩ := h
  exact hc

/-- The lanes an instruction that answered a next state left at its base. -/
theorem exec_next_lanes {s t : State} {i : Instr} {vs : VReg} {ra rb : GReg}
    (hi : i = .stvxl vs ra rb ∨ i = .stvxl128 vs ra rb) (h : exec i s = .next t) :
    ∀ k < 16, t.ownByte ((s.storeBase ra rb).toNat + k) = some (lane (s.cur.vrValue vs) k) := by
  obtain ⟨u, hu, -, hlanes⟩ := exec_stores_lanes hi (canStore_of_exec hi h)
  rw [h] at hu
  cases hu
  exact hlanes

/-- Settles O19: with one agent and nothing pending, the writes performed are the lane writes, which are one big-endian write. -/
theorem singleAgentStoreIsOneMemWrite : Obligations.SingleAgentStoreIsOneMemWrite := by
  intro s vs ra rb i hi hsingle hpending hc
  obtain ⟨hmem, hpend⟩ := State.afterStore_single hsingle (s.storeBase ra rb) (s.cur.vrValue vs)
  rw [hpending, List.nil_append, laneWrites_eq_cellsBE] at hmem
  exact ⟨_, hc.exec hi, hpend, hmem⟩

/-- Settles O20: with several agents the lane writes join the pending ones. -/
theorem storeAmongSeveralAgentsIsSixteenByteWrites : Obligations.StoreAmongSeveralAgentsIsSixteenByteWrites := by
  intro s vs ra rb i hi hseveral hc
  obtain ⟨hmem, hpend⟩ := State.afterStore_several hseveral (s.storeBase ra rb) (s.cur.vrValue vs)
  refine ⟨_, laneWrites (s.storeBase ra rb) (s.cur.vrValue vs), hc.exec hi, hmem, hpend, by simp [laneWrites], fun k hk => ?_⟩
  rw [laneWrites, List.getElem?_map, List.getElem?_range hk]
  rfl

/-- The pairs a clear leaves with tracking on. -/
theorem State.mem_clearReservations_resv (s : State) (base : Addr) (h : s.platform.reservationTracking = true) (r : Nat × Nat) :
    r ∈ (s.clearReservations base).resv ↔
      r ∈ s.resv ∧ (r.2 ≠ s.platform.granule base ∨ r.1 = s.cur.id ∧ Config.ownReservationCleared s.draw = false) := by
  rw [← keepsReservation_iff, ← List.mem_filter]
  simp only [State.clearReservations, if_pos h]

/-- Settles O21: the clear keeps the pairs elsewhere, and on the granule at most the storing agent's. -/
theorem storeClearsOtherAgentsReservationsOnItsGranule : Obligations.StoreClearsOtherAgentsReservationsOnItsGranule := by
  intro s vs ra rb i hi hc htrack g
  refine ⟨_, hc.exec hi, ?_⟩
  simp only [State.afterStore_resv, State.mem_clearReservations_resv s _ htrack]
  refine ⟨fun r hr => ?_, fun r hr hg => ⟨hr, .inl hg⟩, fun r _ hg hid hr => ?_⟩
  · obtain ⟨hr, -⟩ := hr
    exact hr
  · obtain ⟨-, hg' | ⟨hid', -⟩⟩ := hr
    · exact hg' hg
    · exact hid hid'

/-- Settles O22: without tracking the clear does nothing, and the lanes stand all the same. -/
theorem withoutTrackingReservationsStay : Obligations.WithoutTrackingReservationsStay := by
  intro s vs ra rb i hi hc htrack
  have hnext := hc.exec hi
  refine ⟨_, hnext, ?_, exec_next_lanes hi hnext⟩
  rw [State.afterStore_resv, State.clearReservations_resv_untracked s _ htrack]

/-- The vector registers as an instruction finds them after another one. -/
theorem exec_next_vrValue {s t : State} {i : Instr} (h : exec i s = .next t) (r : VReg) : t.cur.vrValue r = s.cur.vrValue r := by
  obtain ⟨vs, ra, rb, -, -, rfl⟩ := exec_next_cases h
  simp only [Agent.vrValue, State.afterStore_vr]

/-- The base of a store as an instruction finds it after another one: no general register is written. -/
theorem exec_next_storeBase {s t : State} {i : Instr} (h : exec i s = .next t) (ra rb : GReg) :
    t.storeBase ra rb = s.storeBase ra rb := by
  obtain ⟨vs, ra', rb', -, -, rfl⟩ := exec_next_cases h
  simp only [State.storeBase, Agent.ra0, Agent.gprValue, State.afterStore_gpr]

/-- An instruction that answers a next state leaves every byte outside its block, in the acting agent's view. -/
theorem exec_next_ownByte_other {s t : State} {i : Instr} {vs : VReg} {ra rb : GReg}
    (hi : i = .stvxl vs ra rb ∨ i = .stvxl128 vs ra rb) (h : exec i s = .next t) {a : Nat}
    (ha : a < (s.storeBase ra rb).toNat ∨ (s.storeBase ra rb).toNat + 16 ≤ a) : t.ownByte a = s.ownByte a := by
  obtain rfl := eq_afterStore_of_exec hi h
  exact State.afterStore_ownByte_other s _ _ ha

/-- Settles O24: the second store finds the registers as the first did, so that it writes its lanes to the same block. -/
theorem laterStoreToABlockWins : Obligations.LaterStoreToABlockWins := by
  intro s t u i j vs vs' ra rb ra' rb' hi hj hbase ht hu
  have hsame : t.storeBase ra' rb' = s.storeBase ra rb := (exec_next_storeBase ht ra' rb').trans hbase
  refine ⟨fun k hk => ?_, fun a ha => ?_⟩
  · rw [← hsame, ← exec_next_vrValue ht]
    exact exec_next_lanes hj hu k hk
  · calc u.ownByte a = t.ownByte a := exec_next_ownByte_other hj hu (hsame ▸ ha)
      _ = s.ownByte a := exec_next_ownByte_other hi ht ha

/-- A byte of a part of a register is a byte of the register. -/
theorem extractLsb'_byte_of_part (v : VWord) {lo len p : Nat} (h : p + 8 ≤ len) :
    (v.extractLsb' lo len).extractLsb' p 8 = v.extractLsb' (lo + p) 8 := by
  ext j hj
  have : p + j < len := by omega
  simp [BitVec.getElem_extractLsb', this, Nat.add_assoc]

/-- Where the lanes of a register stand, `n` bytes from byte `off` on read as the register's bits there (20_memory.md R21). -/
theorem State.ownRead_of_lanes {t : State} {base : Nat} {v : VWord} (h : ∀ k < 16, t.ownByte (base + k) = some (lane v k))
    {off n : Nat} (hn : off + n ≤ 16) : t.ownRead (base + off) n = some (v.extractLsb' (8 * (16 - off - n)) (8 * n)) := by
  rw [State.ownRead, readBE_eq_some]
  intro k hk
  rw [Nat.add_assoc, h (off + k) (by omega), lane, extractLsb'_byte_of_part v (by omega)]
  congr 2
  omega

/-- Settles O33: every width reads some of the lanes. -/
theorem storedBlockReadsAsTheRegisterAtEveryWidth : Obligations.StoredBlockReadsAsTheRegisterAtEveryWidth := by
  intro s t vs ra rb i hi ht base v
  have lanes := exec_next_lanes hi ht
  refine ⟨?_, fun j hj => ?_, fun j hj => ?_, fun j hj => ?_⟩
  · exact (State.ownRead_of_lanes lanes (off := 0) (by decide)).trans (by simp [v])
  · rw [show 64 - 64 * j = 8 * (16 - 8 * j - 8) by omega]
    exact State.ownRead_of_lanes lanes (by omega)
  · rw [show 96 - 32 * j = 8 * (16 - 4 * j - 4) by omega]
    exact State.ownRead_of_lanes lanes (by omega)
  · rw [show 112 - 16 * j = 8 * (16 - 2 * j - 2) by omega]
    exact State.ownRead_of_lanes lanes (by omega)

/-! ## What stops a store -/

section
variable {s : State} {vs : VReg} {ra rb : GReg}

theorem storeIndexed_vectorUnavailable (hv : s.platform.vectorAvailable = false) :
    storeIndexed vs ra rb s = .refused .vectorUnavailable := if_pos hv

theorem storeIndexed_pcOverflow (hv : s.platform.vectorAvailable = true) (hpc : s.cur.pc = 0xFFFFFFFC#32) :
    storeIndexed vs ra rb s = .refused .pcOverflow := by
  rw [storeIndexed, if_neg (by simp [hv]), if_pos hpc]
  rfl

theorem storeIndexed_unsetRegister (hv : s.platform.vectorAvailable = true) (hpc : s.cur.pc ≠ 0xFFFFFFFC#32) {r : RegName}
    (hr : s.cur.firstUnset (operandRegs vs ra rb) = some r) : storeIndexed vs ra rb s = .fault (.unsetRegister r) := by
  rw [storeIndexed, if_neg (by simp [hv]), if_neg hpc, hr]
  rfl

/-- Past its first three guards the store is the one of its register at its base. -/
theorem storeIndexed_storeVector (hv : s.platform.vectorAvailable = true) (hpc : s.cur.pc ≠ 0xFFFFFFFC#32)
    (hset : s.cur.firstUnset (operandRegs vs ra rb) = none) :
    storeIndexed vs ra rb s = s.storeVector (s.storeBase ra rb) (s.cur.vrValue vs) := by
  rw [storeIndexed, if_neg (by simp [hv]), if_neg hpc, hset]

theorem State.storeVector_notAdmitted {base : Addr} {v : VWord} (ha : s.platform.admits base = false) :
    s.storeVector base v = .fault (.storeNotAdmitted base) := if_pos ha

theorem State.storeVector_intoProgram {base : Addr} {v : VWord} (ha : s.platform.admits base = true)
    (ho : s.platform.overlapsProgram base = true) : s.storeVector base v = .refused .storeIntoProgramText := by
  rw [State.storeVector, if_neg (by simp [ha]), if_pos ho]
  rfl

end

/-- Settles O25: each guard stops the store once those before it have not. -/
theorem storeGuardsStopInTheirOrder : Obligations.StoreGuardsStopInTheirOrder := by
  intro s vs ra rb i hi
  rw [exec_eq_storeIndexed s hi]
  refine ⟨storeIndexed_vectorUnavailable, fun hv => ⟨storeIndexed_pcOverflow hv, fun hpc hset => ?_⟩⟩
  rw [storeIndexed_storeVector hv hpc hset]
  refine ⟨State.storeVector_notAdmitted, fun ha a hbase hend hfirst hlast => State.storeVector_intoProgram ha ?_⟩
  exact (Platform.overlapsProgram_iff _ _).2 ⟨a, hbase, hend, (Platform.inProgram_iff _ _).2 ⟨hfirst, hlast⟩⟩

/-- The registers an instruction reads. -/
theorem mem_operandRegs (vs : VReg) (ra rb : GReg) (r : RegName) :
    r ∈ operandRegs vs ra rb ↔ (ra ≠ 0#5 ∧ r = .gpr ra) ∨ r = .gpr rb ∨ r = .vr vs := by
  by_cases h : ra = 0#5 <;> simp [operandRegs, h]

/-- No operand register is unset. -/
theorem Agent.firstUnset_operandRegs_eq_none_iff (ag : Agent) (vs : VReg) (ra rb : GReg) :
    ag.firstUnset (operandRegs vs ra rb) = none ↔
      (ra = 0#5 ∨ RegName.gpr ra ∉ ag.unset) ∧ RegName.gpr rb ∉ ag.unset ∧ RegName.vr vs ∉ ag.unset := by
  simp only [Agent.firstUnset, List.find?_eq_none, mem_operandRegs, decide_eq_true_eq]
  constructor
  · intro h
    exact ⟨or_iff_not_imp_left.2 fun hra => h _ (.inl ⟨hra, rfl⟩), h _ (.inr (.inl rfl)), h _ (.inr (.inr rfl))⟩
  · rintro ⟨hra, hrb, hvs⟩ r (⟨hne, rfl⟩ | rfl | rfl)
    · exact hra.resolve_left hne
    · exact hrb
    · exact hvs

/-- An unset register at the head is the first. -/
theorem Agent.firstUnset_cons_of_mem (ag : Agent) {r : RegName} {rs : List RegName} (h : r ∈ ag.unset) :
    ag.firstUnset (r :: rs) = some r := List.find?_cons_of_pos (by simpa using h)

/-- A register that is set is passed over. -/
theorem Agent.firstUnset_cons_of_not_mem (ag : Agent) {r : RegName} {rs : List RegName} (h : r ∉ ag.unset) :
    ag.firstUnset (r :: rs) = ag.firstUnset rs := List.find?_cons_of_neg (by simpa using h)

/-- Where RA is not read or set, the search goes on at RB. -/
theorem Agent.firstUnset_operandRegs_of_ra_set (ag : Agent) (vs : VReg) {ra : GReg} (rb : GReg)
    (h : ra = 0#5 ∨ RegName.gpr ra ∉ ag.unset) :
    ag.firstUnset (operandRegs vs ra rb) = ag.firstUnset [.gpr rb, .vr vs] := by
  by_cases hra : ra = 0#5
  · rw [hra, operandRegs_ra_zero]
  · rw [operandRegs, if_neg hra]
    exact ag.firstUnset_cons_of_not_mem (h.resolve_left hra)

/-- Settles O26: the search runs through RA, RB and VS. -/
theorem firstUnsetOperandFaults : Obligations.FirstUnsetOperandFaults := by
  intro s vs ra rb i hi hv hpc
  rw [exec_eq_storeIndexed s hi]
  refine ⟨fun hra hu => ?_, fun hra hu => ?_, fun hra hrb hu => ?_⟩ <;> apply storeIndexed_unsetRegister hv hpc
  · rw [operandRegs, if_neg hra]
    exact s.cur.firstUnset_cons_of_mem hu
  · rw [s.cur.firstUnset_operandRegs_of_ra_set vs rb hra]
    exact s.cur.firstUnset_cons_of_mem hu
  · rw [s.cur.firstUnset_operandRegs_of_ra_set vs rb hra, s.cur.firstUnset_cons_of_not_mem hrb]
    exact s.cur.firstUnset_cons_of_mem hu

/-- A block shares no byte with the program. -/
theorem Platform.overlapsProgram_eq_false_iff_bounds (p : Platform) (base : Addr) :
    p.overlapsProgram base = false ↔
      ∀ a, base.toNat ≤ a → a < base.toNat + 16 → ¬(p.progBase.toNat ≤ a ∧ a < p.progBase.toNat + 4 * p.progLen) := by
  rw [Platform.overlapsProgram_eq_false]
  exact forall_congr' fun a => imp_congr_right fun _ => imp_congr_right fun _ => by
    rw [← Bool.not_eq_true, Platform.inProgram_iff]

/-- Settles O27: a next state is answered exactly where no guard fires, and each guard is the condition named. -/
theorem instructionCompletesExactlyWhenNoGuardFires : Obligations.InstructionCompletesExactlyWhenNoGuardFires := by
  intro s vs ra rb i hi
  have completes : (∃ t, exec i s = .next t) ↔ s.CanStore vs ra rb :=
    ⟨fun ⟨_, ht⟩ => canStore_of_exec hi ht, fun hc => ⟨_, hc.exec hi⟩⟩
  rw [completes, State.CanStore, Agent.firstUnset_operandRegs_eq_none_iff, Platform.overlapsProgram_eq_false_iff_bounds]
  simp only [and_assoc]

end Sys2Proof.Machine
end

section
/-! SUPPORT. Proofs of the statements about the fetch, the step and whole runs (70_reset_and_hazards.md, 40_vector_store.md R55). -/

namespace Sys2Proof.Machine

/-! ## The fetch -/

theorem Platform.progEnd_eq (p : Platform) : p.progEnd = p.progBase.toNat + 4 * p.progLen := rfl

/-- A word is read where its four bytes stand, the most significant first (20_memory.md R22). -/
theorem readBE_four {view : Nat → Option Byte} {addr : Nat} {b0 b1 b2 b3 : Byte} (h0 : view addr = some b0)
    (h1 : view (addr + 1) = some b1) (h2 : view (addr + 2) = some b2) (h3 : view (addr + 3) = some b3) :
    readBE view addr 4 = some (wordOfBytes b0 b1 b2 b3) := by
  have num : natOfBytes [b0, b1, b2, b3] = (wordOfBytes b0 b1 b2 b3).toNat := by
    rw [wordOfBytes_toNat]
    simp only [natOfBytes, List.foldl_cons, List.foldl_nil]
    omega
  simp only [readBE, bytesFrom, h0, h1, h2, h3, Option.map_some, num]
  exact congrArg some (BitVec.ofNat_toNat 32 _ |>.trans (BitVec.setWidth_eq _))

section
variable {s : State}

theorem State.fetch_misaligned (h : s.cur.pc.toNat % 4 ≠ 0) : s.fetch = .refuse .pcMisaligned := if_pos h

theorem State.fetch_ended (h : s.cur.pc.toNat % 4 = 0) (hended : s.cur.ended s.platform = true) : s.fetch = .ended := by
  rw [State.fetch, if_neg (by simp [h]), if_pos hended]

/-- No agent has ended inside the program. -/
theorem Agent.ended_eq_false_of_inProgram {p : Platform} {ag : Agent} (h : p.inProgram ag.pc.toNat = true) :
    ag.ended p = false := by
  rw [Platform.inProgram_iff] at h
  rw [Agent.ended, decide_eq_false_iff_not]
  omega

theorem State.fetch_outside (h : s.cur.pc.toNat % 4 = 0) (hended : s.cur.ended s.platform = false)
    (hout : s.platform.inProgram s.cur.pc.toNat = false) : s.fetch = .refuse .fetchNotAdmitted := by
  rw [State.fetch, if_neg (by simp [h]), if_neg (by simp [hended]), if_pos hout]

theorem State.fetch_run (h : s.cur.pc.toNat % 4 = 0) (hin : s.platform.inProgram s.cur.pc.toNat = true) {w : Word} {i : Instr}
    (hw : s.fetchWord = some w) (hi : decodeWord w = some i) : s.fetch = .run i := by
  have hended := Agent.ended_eq_false_of_inProgram hin
  simp [State.fetch, h, hended, hin, hw, hi]

theorem State.fetch_notInScope (h : s.cur.pc.toNat % 4 = 0) (hin : s.platform.inProgram s.cur.pc.toNat = true) {w : Word}
    (hw : s.fetchWord = some w) (hi : decodeWord w = none) : s.fetch = .refuse (.notInScope w) := by
  have hended := Agent.ended_eq_false_of_inProgram hin
  simp [State.fetch, h, hended, hin, hw, hi]

/-! ## The step from the fetch -/

theorem step_of_refuse {r : Refusal} (h : s.fetch = .refuse r) : step s = .refused r := by rw [step, h]; rfl

theorem step_of_ended (h : s.fetch = .ended) : step s = .next s.afterStep := by rw [step, h]; rfl

theorem step_of_run {i : Instr} (h : s.fetch = .run i) : step s = outcomeAfterStep (exec i s) := by rw [step, h]

end

/-- Settles O28: the four bytes are the word fetched, and each guard stops the fetch once those before it have not. -/
theorem fetchGuardsStopInTheirOrder : Obligations.FetchGuardsStopInTheirOrder := by
  intro s
  have hend := s.platform.progEnd_eq
  dsimp only
  refine ⟨fun h => step_of_refuse (State.fetch_misaligned h), fun h hout => ?_,
    fun h hfirst hlast b0 b1 b2 b3 h0 h1 h2 h3 hi => ?_⟩
  · refine step_of_refuse (State.fetch_outside h ?_ ((Platform.inProgram_eq_false _ _).2 ?_))
    · rw [Agent.ended, decide_eq_false_iff_not]
      omega
    · omega
  · have hin : s.platform.inProgram s.cur.pc.toNat = true := (Platform.inProgram_iff _ _).2 ⟨hfirst, hlast⟩
    exact step_of_refuse (State.fetch_notInScope h hin (readBE_four h0 h1 h2 h3) hi)

/-- With one agent nothing follows the instruction. -/
theorem outcomeAfterStep_exec_single {s : State} (h : s.others = []) (i : Instr) : outcomeAfterStep (exec i s) = exec i s := by
  cases hexec : exec i s with
  | next t =>
    obtain ⟨vs, ra, rb, -, -, rfl⟩ := exec_next_cases hexec
    exact congrArg _ (State.afterStep_single ((State.afterStore_others s _ _).trans h))
  | fault f => rfl
  | refused r => rfl

/-- Settles O29: the four bytes are the word fetched. -/
theorem stepRunsTheDecodedInstruction : Obligations.StepRunsTheDecodedInstruction := by
  intro s b0 b1 b2 b3 i h hfirst hlast h0 h1 h2 h3 hi
  have hin : s.platform.inProgram s.cur.pc.toNat = true := (Platform.inProgram_iff _ _).2 ⟨hfirst, hlast⟩
  have hstep := step_of_run (State.fetch_run h hin (readBE_four h0 h1 h2 h3) hi)
  exact ⟨hstep, fun hsingle => hstep.trans (outcomeAfterStep_exec_single hsingle i)⟩

/-- Settles O30: the fetch finds the agent ended. -/
theorem endedAgentTakesNoStep : Obligations.EndedAgentTakesNoStep := by
  intro s h hend
  have hstep := step_of_ended (State.fetch_ended h (decide_eq_true hend))
  exact ⟨hstep, fun hsingle => by rw [hstep, State.afterStep_single hsingle]⟩

/-! ## Loading one word -/

@[simp] theorem Platform.admitProgram_progBase (p : Platform) : p.admitProgram.progBase = p.progBase := by
  unfold Platform.admitProgram; split <;> rfl

@[simp] theorem Platform.admitProgram_progLen (p : Platform) : p.admitProgram.progLen = p.progLen := by
  unfold Platform.admitProgram; split <;> rfl

/-- The bytes of a loaded program are backed (70_reset_and_hazards.md R70). -/
theorem Platform.admitProgram_backs (p : Platform) (hend : p.progEnd ≤ 2 ^ 32) :
    ∀ k < 4 * p.progLen, p.admitProgram.backs (p.progBase.toNat + k) = true := by
  intro k hk
  rw [Platform.progEnd_eq] at hend
  refine (Platform.backs_iff _ _).2 ⟨by omega, ?_⟩
  unfold Platform.admitProgram
  split
  · next h => exact List.all_eq_true.1 h k (List.mem_range.2 hk)
  · rw [Platform.admits_iff, BitVec.toNat_ofNat]
    exact ⟨_, List.mem_cons_self, by simp only; omega, by simp only [Platform.progEnd_eq]; omega⟩

/-- The word a table word stands for. -/
theorem decodeTableWord_eq (nbits w : Nat) : decodeTableWord nbits w = decodeWord (BitVec.ofNat 32 (w % 2 ^ nbits)) := by
  generalize hx : BitVec.ofNat 32 (w % 2 ^ nbits) = x
  obtain ⟨hsome, hnone⟩ := decodeTakesBytesBigEndian x []
  unfold decodeTableWord wordBytes
  rw [hx]
  cases hi : decodeWord x with
  | none => rw [hnone hi]
  | some i => rw [hsome i hi]

section
variable (s : State) (x : Word)

/-- The state with the one-word program `x` loaded where the acting agent fetches. -/
def State.placed : State := s.load s.cur.pc [x]

@[simp] theorem State.placed_cur : (s.placed x).cur = s.cur := rfl

@[simp] theorem State.placed_progBase : (s.placed x).platform.progBase = s.cur.pc := Platform.admitProgram_progBase _

@[simp] theorem State.placed_progLen : (s.placed x).platform.progLen = 1 := Platform.admitProgram_progLen _

theorem State.placed_mem : (s.placed x).mem = s.mem.writeBE s.cur.pc.toNat 4 x := rfl

/-- The bytes of the word placed are backed. -/
theorem State.placed_backs (h : s.cur.pc.toNat % 4 = 0) :
    ∀ k < 4, (s.placed x).platform.backs (s.cur.pc.toNat + k) = true := by
  have hlt := s.cur.pc.isLt
  exact Platform.admitProgram_backs { s.platform with progBase := s.cur.pc, progLen := 1 }
    (by simp only [Platform.progEnd_eq]; omega)

/-- The word placed is the word fetched. -/
theorem State.placed_fetchWord (h : s.cur.pc.toNat % 4 = 0) : (s.placed x).fetchWord = some x := by
  have view : (s.placed x).byteAt = (s.placed x).platform.view (s.mem.writeBE s.cur.pc.toNat 4 x) :=
    congrArg (s.placed x).platform.view (s.placed_mem x)
  rw [State.fetchWord, State.placed_cur, view]
  exact readBE_view_writeBE (n := 4) s.mem x (s.placed_backs x h)

end

/-- Settles O31: the word placed is the program's only one, and it is the word fetched. -/
theorem placedWordIsWhatTheNextStepRuns : Obligations.PlacedWordIsWhatTheNextStepRuns := by
  intro s nbits w i h hi
  rw [decodeTableWord_eq] at hi
  show step (s.placed (BitVec.ofNat 32 (w % 2 ^ nbits))) = outcomeAfterStep (exec i (s.placed (BitVec.ofNat 32 (w % 2 ^ nbits))))
  generalize BitVec.ofNat 32 (w % 2 ^ nbits) = x at hi ⊢
  refine step_of_run (State.fetch_run (s := s.placed x) h ?_ (s.placed_fetchWord x h) hi)
  rw [Platform.inProgram_iff, Platform.progEnd_eq, State.placed_progBase, State.placed_progLen, State.placed_cur]
  omega

/-! ## Legal addresses are fetchable -/

/-- A word of the program stands in memory. -/
theorem State.Inv.exists_word {s : State} (h : s.Inv) {a : Nat} (haligned : a % 4 = 0) (hin : s.platform.inProgram a = true) :
    ∃ w, readBE s.byteAt a 4 = some w := by
  obtain ⟨hbase, hend, hadm⟩ := h.platform
  rw [Platform.inProgram_iff] at hin
  rw [Platform.progEnd_eq] at hin hend
  have byte (k : Nat) (hk : k < 4) : ∃ b, s.byteAt (a + k) = some b := by
    have hadmits := hadm (a + k - s.platform.progBase.toNat) (by omega)
    rw [show s.platform.progBase.toNat + (a + k - s.platform.progBase.toNat) = a + k by omega] at hadmits
    exact (s.platform.exists_view_eq_some_iff s.mem _).2 ⟨by omega, hadmits⟩
  obtain ⟨b0, h0⟩ := byte 0 (by decide)
  obtain ⟨b1, h1⟩ := byte 1 (by decide)
  obtain ⟨b2, h2⟩ := byte 2 (by decide)
  obtain ⟨b3, h3⟩ := byte 3 (by decide)
  exact ⟨_, readBE_four h0 h1 h2 h3⟩

/-- In a run the acting agent stands at a word of the program or has ended. -/
theorem State.Inv.inProgram_of_not_end {s : State} (h : s.Inv) (hend : s.cur.pc.toNat ≠ s.platform.progEnd) :
    s.platform.inProgram s.cur.pc.toNat = true := by
  obtain ⟨-, hfirst, hlast⟩ := h.pcLegal s.cur List.mem_cons_self
  exact (Platform.inProgram_iff _ _).2 ⟨hfirst, by omega⟩

/-- In a run the fetch finds the agent ended, an instruction, or a word out of scope. -/
theorem State.Inv.fetch_cases {s : State} (h : s.Inv) :
    s.fetch = .ended ∨ (∃ i, s.fetch = .run i) ∨ ∃ w, s.fetch = .refuse (.notInScope w) := by
  obtain ⟨haligned, -, -⟩ := h.pcLegal s.cur List.mem_cons_self
  by_cases hend : s.cur.pc.toNat = s.platform.progEnd
  · exact .inl (State.fetch_ended haligned (decide_eq_true hend))
  · right
    have hin := h.inProgram_of_not_end hend
    obtain ⟨w, hw⟩ := h.exists_word haligned hin
    cases hi : decodeWord w with
    | none => exact .inr ⟨w, State.fetch_notInScope haligned hin hw hi⟩
    | some i => exact .inl ⟨i, State.fetch_run haligned hin hw hi⟩

/-- Every way an instruction can stop, by the first guard that fires. -/
theorem storeIndexed_cases (vs : VReg) (ra rb : GReg) (s : State) :
    storeIndexed vs ra rb s = .refused .vectorUnavailable ∨
      (s.cur.pc = 0xFFFFFFFC#32 ∧ storeIndexed vs ra rb s = .refused .pcOverflow) ∨
      (∃ r, storeIndexed vs ra rb s = .fault (.unsetRegister r)) ∨
      (∃ base, storeIndexed vs ra rb s = .fault (.storeNotAdmitted base)) ∨
      storeIndexed vs ra rb s = .refused .storeIntoProgramText ∨
      ∃ t, storeIndexed vs ra rb s = .next t := by
  cases hv : s.platform.vectorAvailable with
  | false => exact .inl (storeIndexed_vectorUnavailable hv)
  | true =>
    by_cases hpc : s.cur.pc = 0xFFFFFFFC#32
    · exact .inr (.inl ⟨hpc, storeIndexed_pcOverflow hv hpc⟩)
    · cases hset : s.cur.firstUnset (operandRegs vs ra rb) with
      | some r => exact .inr (.inr (.inl ⟨r, storeIndexed_unsetRegister hv hpc hset⟩))
      | none =>
        rw [storeIndexed_storeVector hv hpc hset]
        cases ha : s.platform.admits (s.storeBase ra rb) with
        | false => exact .inr (.inr (.inr (.inl ⟨_, State.storeVector_notAdmitted ha⟩)))
        | true =>
          cases ho : s.platform.overlapsProgram (s.storeBase ra rb) with
          | true => exact .inr (.inr (.inr (.inr (.inl (State.storeVector_intoProgram ha ho)))))
          | false =>
            have hnext := storeIndexed_eq_next.2 ⟨(⟨hv, hpc, hset, ha, ho⟩ : s.CanStore vs ra rb), rfl⟩
            rw [storeIndexed_storeVector hv hpc hset] at hnext
            exact .inr (.inr (.inr (.inr (.inr ⟨_, hnext⟩))))

/-- Settles O43: neither an ended agent nor an instruction stops for these reasons, and a word out of scope only for its own. -/
theorem legalPcsAreAlwaysFetchable : Obligations.LegalPcsAreAlwaysFetchable := by
  intro s h
  rcases h.fetch_cases with hf | ⟨i, hf⟩ | ⟨w, hf⟩
  · rw [step_of_ended hf]
    simp
  · obtain ⟨vs, ra, rb, hi⟩ := Instr.operands i
    rw [step_of_run hf, exec_eq_storeIndexed s hi]
    rcases storeIndexed_cases vs ra rb s with hx | ⟨hpc, hx⟩ | ⟨r, hx⟩ | ⟨base, hx⟩ | hx | ⟨t, hx⟩ <;> rw [hx]
    case inr.inl => simp [outcomeAfterStep, hpc]
    all_goals simp [outcomeAfterStep]
  · rw [step_of_refuse hf]
    simp

/-! ## Runs -/

/-- At a word that decodes to a store whose guards do not fire, the step runs that store. -/
theorem State.Inv.step_store {s : State} (h : s.Inv) (hend : s.cur.pc.toNat ≠ s.platform.progEnd) {w : Word} {vs : VReg}
    {ra rb : GReg} (hw : readBE s.byteAt s.cur.pc.toNat 4 = some w)
    (hdecode : decodeWord w = some (.stvxl vs ra rb) ∨ decodeWord w = some (.stvxl128 vs ra rb)) (hc : s.CanStore vs ra rb) :
    step s = .next (s.afterStore (s.storeBase ra rb) (s.cur.vrValue vs)).afterStep := by
  obtain ⟨haligned, -, -⟩ := h.pcLegal s.cur List.mem_cons_self
  have hin := h.inProgram_of_not_end hend
  rcases hdecode with hi | hi
  · rw [step_of_run (State.fetch_run haligned hin hw hi), hc.exec (.inl rfl)]
    rfl
  · rw [step_of_run (State.fetch_run haligned hin hw hi), hc.exec (.inr rfl)]
    rfl

/-- Settles O44: the step is taken with the state the store leaves. -/
theorem launchPremisesSufficeForAStep : Obligations.LaunchPremisesSufficeForAStep :=
  fun _ _ _ _ _ h hend hw hdecode hc => ⟨_, h.step_store hend hw hdecode hc⟩

/-- The launch premises of one word of the program (70_reset_and_hazards.md R72). -/
def State.Ready (s : State) (a : Nat) : Prop :=
  ∃ (w : Word) (vs : VReg) (ra rb : GReg), readBE s.byteAt a 4 = some w ∧
    (decodeWord w = some (.stvxl vs ra rb) ∨ decodeWord w = some (.stvxl128 vs ra rb)) ∧
    s.cur.firstUnset (operandRegs vs ra rb) = none ∧ s.platform.admits (s.storeBase ra rb) = true ∧
    s.platform.overlapsProgram (s.storeBase ra rb) = false

/-- Whether the word at an address is ready depends on its four bytes, the parameters and the acting agent's registers. -/
theorem State.Ready.congr {s t : State} {a : Nat} (h : s.Ready a) (hbytes : ∀ k < 4, t.byteAt (a + k) = s.byteAt (a + k))
    (hplatform : t.platform = s.platform) (hgpr : t.cur.gpr = s.cur.gpr) (hunset : t.cur.unset = s.cur.unset) : t.Ready a := by
  obtain ⟨w, vs, ra, rb, hw, hdecode, hset, hadm, hover⟩ := h
  have hbase : t.storeBase ra rb = s.storeBase ra rb := by
    simp only [State.storeBase, Agent.ra0, Agent.gprValue, hgpr]
  have hw' : readBE t.byteAt a 4 = some w := by
    rw [readBE_eq_some] at hw ⊢
    exact fun k hk => (hbytes k hk).trans (hw k hk)
  refine ⟨w, vs, ra, rb, hw', hdecode, ?_, ?_, ?_⟩
  · rwa [Agent.firstUnset, hunset]
  · rwa [hplatform, hbase]
  · rwa [hplatform, hbase]

/-- The premises of a single agent's run to the end: those of every word ahead of it. -/
structure State.ReadyRun (s : State) : Prop where
  inv : s.Inv
  single : s.others = []
  vector : s.platform.vectorAvailable = true
  endBelow : s.platform.progEnd < 2 ^ 32
  ahead : ∀ a, s.cur.pc.toNat ≤ a → a < s.platform.progEnd → a % 4 = 0 → s.Ready a

/-- Before its end such a run's agent stands at a word of the program below the top of the address space, and its step is the store
of that word. -/
theorem State.ReadyRun.step_store {s : State} (h : s.ReadyRun) (hend : s.cur.pc.toNat ≠ s.platform.progEnd) :
    s.cur.pc ≠ 0xFFFFFFFC#32 ∧ ∃ vs ra rb, s.CanStore vs ra rb ∧
      step s = .next (s.afterStore (s.storeBase ra rb) (s.cur.vrValue vs)) := by
  obtain ⟨haligned, hfirst, hlast⟩ := h.inv.pcLegal s.cur List.mem_cons_self
  obtain ⟨hbase, -, -⟩ := h.inv.platform
  have hbelow := h.endBelow
  have hprogEnd := s.platform.progEnd_eq
  obtain ⟨w, vs, ra, rb, hw, hdecode, hset, hadm, hover⟩ := h.ahead _ (Nat.le_refl _) (by omega) haligned
  have htop : s.cur.pc ≠ 0xFFFFFFFC#32 := fun e => by
    have : s.cur.pc.toNat = 0xFFFFFFFC := congrArg BitVec.toNat e
    omega
  have hc : s.CanStore vs ra rb := ⟨h.vector, htop, hset, hadm, hover⟩
  have hstep := h.inv.step_store hend hw hdecode hc
  rw [State.afterStep_single ((State.afterStore_others s _ _).trans h.single)] at hstep
  exact ⟨htop, vs, ra, rb, hc, hstep⟩

/-- One step of such a run: the next state is one of such a run, one word further. -/
theorem State.ReadyRun.step {s : State} (h : s.ReadyRun) (hend : s.cur.pc.toNat ≠ s.platform.progEnd) :
    ∃ t, step s = .next t ∧ t.ReadyRun ∧ t.platform = s.platform ∧ t.cur.pc.toNat = s.cur.pc.toNat + 4 := by
  obtain ⟨haligned, hfirst, -⟩ := h.inv.pcLegal s.cur List.mem_cons_self
  obtain ⟨hbase, -, -⟩ := h.inv.platform
  have hprogEnd := s.platform.progEnd_eq
  have hin := h.inv.inProgram_of_not_end hend
  obtain ⟨htop, vs, ra, rb, hc, hstep⟩ := h.step_store hend
  have hplatform := State.afterStore_platform s (s.storeBase ra rb) (s.cur.vrValue vs)
  obtain ⟨-, hpc⟩ := Agent.PcLegal.next h.inv.platform haligned hin htop
    (State.afterStore_pc s (s.storeBase ra rb) (s.cur.vrValue vs))
  refine ⟨_, hstep, ?_, hplatform, hpc⟩
  refine ⟨h.inv.afterStore hc haligned hin _, (State.afterStore_others s _ _).trans h.single, hplatform ▸ h.vector,
    hplatform ▸ h.endBelow, fun a ha halt h4 => ?_⟩
  rw [hplatform] at halt
  refine (h.ahead a (by omega) halt h4).congr (fun k hk => ?_) hplatform (State.afterStore_gpr s _ _) (State.afterStore_unset s _ _)
  have hink : s.platform.inProgram (a + k) = true := (Platform.inProgram_iff _ _).2 ⟨by omega, by omega⟩
  rw [State.byteAt, hplatform]
  exact Platform.view_congr _ (h.inv.step_read_program hstep hink)

/-- At its end such a run is final. -/
theorem State.ReadyRun.final {s : State} (h : s.ReadyRun) (hend : s.cur.pc.toNat = s.platform.progEnd) : s.Final := by
  rw [State.Final, State.agents, h.single]
  exact List.forall_mem_singleton.2 ⟨decide_eq_true hend, h.inv.singleDrained h.single⟩

/-- A run whose first step answers a next state goes on from there. -/
theorem run_succ_of_step {s t : State} (h : step s = .next t) (n : Nat) :
    Host.Core.run Sys2Proof.core (n + 1) s = Host.Core.run Sys2Proof.core n t := by
  have hfirst : Sys2Proof.core.step s = .next t := h
  simp only [Host.Core.run, hfirst]

/-- Such a run reaches the end, by induction on the number of words ahead. -/
theorem State.ReadyRun.run (n : Nat) {s : State} (h : s.ReadyRun) (hn : s.cur.pc.toNat + 4 * n = s.platform.progEnd) :
    ∃ t, Host.Core.run Sys2Proof.core n s = .next t ∧ t.cur.pc.toNat = s.platform.progEnd ∧ t.Final := by
  induction n generalizing s with
  | zero => exact ⟨s, rfl, hn, h.final hn⟩
  | succ n ih =>
    obtain ⟨t, hstep, ht, hplatform, hpc⟩ := h.step (by omega)
    obtain ⟨u, hrun, hend, hfinal⟩ := ih ht (by rw [hplatform, hpc]; omega)
    refine ⟨u, (run_succ_of_step hstep n).trans hrun, by rw [hend, hplatform], hfinal⟩

/-- Settles O45: the premises are those of a run to the end, and there are as many words ahead as steps. -/
theorem launchPremisesReachTheEnd : Obligations.LaunchPremisesReachTheEnd := by
  intro s hinv hsingle hvector hbelow hahead
  obtain ⟨haligned, hfirst, hlast⟩ := hinv.pcLegal s.cur List.mem_cons_self
  obtain ⟨hbase, -, -⟩ := hinv.platform
  have hprogEnd := s.platform.progEnd_eq
  exact State.ReadyRun.run _ ⟨hinv, hsingle, hvector, hbelow, hahead⟩ (by omega)

/-- Nothing happens to memory, and a run stays final, between steps of a final run: no byte is on its way. -/
theorem State.Between.final {s u : State} (hsu : s.Between u) (h : s.Final) : u.Final ∧ u.mem = s.mem := by
  refine ⟨fun b hb => ?_, ?_⟩
  · obtain ⟨a, ha, ps, hps, rfl⟩ := hsu.drains b hb
    obtain ⟨hended, hpending⟩ := h a ha
    rw [hsu.platform]
    exact ⟨hended, List.eq_nil_of_sublist_nil (hpending ▸ hps)⟩
  · obtain ⟨ws, hmem, hws⟩ := hsu.mem
    have hnone : ws = [] := List.eq_nil_iff_forall_not_mem.2 fun w hw => by
      obtain ⟨a, ha, hwa⟩ := hws w hw
      obtain ⟨-, hpending⟩ := h a ha
      rw [hpending] at hwa
      exact List.not_mem_nil hwa
    rw [hmem, hnone, Memory.writeAll_nil]

/-- Settles O46: the acting agent has ended, so that only what happens between steps happens. -/
theorem finalRunsStayAsTheyAre : Obligations.FinalRunsStayAsTheyAre := by
  intro s h hfinal
  obtain ⟨haligned, -, -⟩ := h.pcLegal s.cur List.mem_cons_self
  obtain ⟨hended, -⟩ := hfinal s.cur List.mem_cons_self
  obtain ⟨hfinal', hmem⟩ := s.between_afterStep.final hfinal
  exact ⟨_, step_of_ended (State.fetch_ended haligned hended), hfinal', hmem, s.between_afterStep.resv⟩

end Sys2Proof.Machine
end

section
/-! SUPPORT. Proofs of the statements about arriving bytes, the launch memory and the state after reset (20_memory.md sections 4 and 6,
70_reset_and_hazards.md section 1). -/

namespace Sys2Proof.Machine

/-! ## Arriving bytes -/

/-- A write may be performed before others that go elsewhere. -/
theorem Memory.read_writeAll_write_comm {us : List Host.Cell} (m : Memory) (w : Host.Cell)
    (h : ∀ x ∈ us, x.1 ≠ w.1) (a : Nat) :
    ((m.write w.1 w.2).writeAll us).read a = ((m.writeAll us).write w.1 w.2).read a := by
  rw [Memory.read_write]
  split
  · next ha =>
    rw [ha, Memory.read_writeAll_other _ h, Memory.read_write_same]
  · next ha =>
    exact Memory.read_writeAll_congr us (Memory.read_write_other _ _ _ _ ha)

/-- An arrival changes no byte of the memory that the agent sees. -/
theorem Agent.arrive_ownView (ag : Agent) (m : Memory) (pick a : Nat) :
    ((ag.arrive m pick).2.writeAll (ag.arrive m pick).1.pending).read a = (m.writeAll ag.pending).read a := by
  rcases ag.arrive_cases m pick with ⟨-, h⟩ | ⟨us, w, vs, hp, hus, h⟩
  · rw [h]
  · rw [h, hp, Memory.writeAll_append, Memory.writeAll_append, Memory.writeAll_cons]
    exact Memory.read_writeAll_congr vs (Memory.read_writeAll_write_comm m w hus a)

/-- Settles O47: the byte that arrives is the oldest one to its address. -/
theorem arrivalsKeepTheStoringAgentsView : Obligations.ArrivalsKeepTheStoringAgentsView := Agent.arrive_ownView

/-- An arrival is of one pending write, while there are any. -/
theorem Agent.arrive_pending_length (ag : Agent) (m : Memory) (pick : Nat) :
    (ag.arrive m pick).1.pending.length = ag.pending.length - 1 := by
  rcases ag.arrive_cases m pick with ⟨hp, h⟩ | ⟨us, w, vs, hp, -, h⟩
  · rw [h, hp]
    rfl
  · rw [h, hp]
    simp

/-- An arrival keeps memory in canonical form and what is pending in the address space. -/
theorem Agent.arrive_wf {ag : Agent} {m : Memory} (hm : m.wf) (hp : ∀ c ∈ ag.pending, c.1 < 2 ^ 32) (pick : Nat) :
    (ag.arrive m pick).2.wf ∧ ∀ c ∈ (ag.arrive m pick).1.pending, c.1 < 2 ^ 32 := by
  obtain ⟨ps, ws, hps, hws, h⟩ := ag.arrive_eq m pick
  rw [h]
  exact ⟨Memory.writeAll_wf hm fun w hw => hp w (hws hw), fun c hc => hp c (hps.subset hc)⟩

/-- One arrival after the other, by the choices listed. -/
def Agent.arriveAll (ag : Agent) (m : Memory) (picks : List Nat) : Agent × Memory :=
  picks.foldl (fun r pick => Agent.arrive r.1 r.2 pick) (ag, m)

/-- As many arrivals as writes are pending empty the queue and leave the memory the agent saw, whatever the choices. -/
theorem Agent.arriveAll_drains (picks : List Nat) {ag : Agent} {m : Memory} (hm : m.wf) (hp : ∀ c ∈ ag.pending, c.1 < 2 ^ 32)
    (hlength : picks.length = ag.pending.length) :
    (ag.arriveAll m picks).1.pending = [] ∧ (ag.arriveAll m picks).2 = m.writeAll ag.pending := by
  induction picks generalizing ag m with
  | nil =>
    have hempty : ag.pending = [] := List.eq_nil_of_length_eq_zero hlength.symm
    rw [hempty]
    exact ⟨hempty, rfl⟩
  | cons pick picks ih =>
    obtain ⟨hm', hp'⟩ := Agent.arrive_wf hm hp pick
    obtain ⟨hempty, hmem⟩ := ih hm' hp' (by rw [ag.arrive_pending_length, ← hlength]; rfl)
    refine ⟨hempty, hmem.trans ?_⟩
    exact Memory.ext_of_read (Memory.writeAll_wf hm' hp') (Memory.writeAll_wf hm hp) (ag.arrive_ownView m pick)

/-- The lane writes of a store lie in the address space. -/
theorem laneWrites_lt {base : Addr} (halign : base.toNat % 16 = 0) (v : VWord) : ∀ w ∈ laneWrites base v, w.1 < 2 ^ 32 := by
  intro w hw
  obtain ⟨k, hk, rfl⟩ := List.mem_map.1 hw
  have hk : k < 16 := List.mem_range.1 hk
  have hlt := base.isLt
  show base.toNat + k < 2 ^ 32
  omega

/-- Settles O48: the arrivals leave the memory the agent saw, and a single agent's store performs the same writes at once. -/
theorem arrivalsInAnyOrderEndAsTheAtomicStore : Obligations.ArrivalsInAnyOrderEndAsTheAtomicStore := by
  intro s t u i picks hwf hpending hseveral ht hu hlength
  obtain ⟨vs, ra, rb, hi⟩ := Instr.operands i
  obtain rfl := eq_afterStore_of_exec hi ht
  obtain rfl := eq_afterStore_of_exec hi hu
  have lanes := laneWrites_lt (s.storeBase_aligned ra rb) (s.cur.vrValue vs)
  obtain ⟨hmem, hpend⟩ := State.afterStore_several hseveral (s.storeBase ra rb) (s.cur.vrValue vs)
  obtain ⟨hsingleMem, -⟩ := State.afterStore_single (s := { s with others := [] }) rfl (s.storeBase ra rb) (s.cur.vrValue vs)
  have hlt : ∀ c ∈ s.cur.pending ++ laneWrites (s.storeBase ra rb) (s.cur.vrValue vs), c.1 < 2 ^ 32 :=
    fun c hc => (List.mem_append.1 hc).elim (hpending c) (lanes c)
  obtain ⟨hempty, hdrained⟩ := Agent.arriveAll_drains picks (hmem ▸ hwf) (hpend ▸ hlt) hlength
  refine ⟨hempty, hdrained.trans ?_⟩
  rw [hmem, hpend]
  exact hsingleMem.symm

/-! ## The launch memory -/

/-- An address that is not listed reads as unlisted. -/
theorem Memory.read_of_not_listed {m : Memory} {a : Nat} (h : ∀ c ∈ m, c.1 ≠ a) : m.read a = Memory.unlisted := by
  induction m with
  | nil => rfl
  | cons c m ih =>
    rw [Memory.read, if_neg (h c List.mem_cons_self).symm, ih fun x hx => h x (List.mem_cons_of_mem _ hx), ite_self]

/-- Below any bound of the address space a kept memory can hold any bytes at the admitted addresses. -/
theorem Platform.exists_keeps_of_bytes (p : Platform) (bytes : Nat → Byte) (n : Nat) (hn : n ≤ 2 ^ 32) :
    ∃ m, p.Keeps m ∧ ∀ a < n, p.admits (BitVec.ofNat 32 a) = true → m.read a = bytes a := by
  induction n with
  | zero => exact ⟨[], ⟨⟨List.Pairwise.nil, by simp⟩, by simp⟩, fun a ha => absurd ha (Nat.not_lt_zero a)⟩
  | succ n ih =>
    obtain ⟨m, ⟨hwf, hadm⟩, hread⟩ := ih (by omega)
    by_cases h : p.admits (BitVec.ofNat 32 n) = true
    · refine ⟨m.write n (bytes n), ⟨Memory.write_wf _ hwf (by omega), fun c hc => ?_⟩, fun a ha hadmits => ?_⟩
      · rcases Memory.mem_of_mem_write hc with ⟨rfl, -⟩ | hc
        · exact h
        · exact hadm c hc
      · rw [Memory.read_write]
        split
        · next e => rw [e]
        · next e => exact hread a (by omega) hadmits
    · refine ⟨m, ⟨hwf, hadm⟩, fun a ha hadmits => ?_⟩
      have hne : a ≠ n := fun e => h (e ▸ hadmits)
      exact hread a (by omega) hadmits

/-- A kept memory reads as unlisted wherever the platform backs nothing. -/
theorem Platform.Keeps.read_of_not_backed {p : Platform} {m : Memory} (h : p.Keeps m) {a : Nat}
    (ha : ¬(a < 2 ^ 32 ∧ p.admits (BitVec.ofNat 32 a) = true)) : m.read a = Memory.unlisted := by
  obtain ⟨⟨-, hlt⟩, hadm⟩ := h
  refine Memory.read_of_not_listed fun c hc e => ha ?_
  subst e
  exact ⟨(hlt c hc).1, hadm c hc⟩

/-- Two kept memories that agree at the admitted addresses are equal. -/
theorem Platform.Keeps.ext {p : Platform} {m n : Memory} (hm : p.Keeps m) (hn : p.Keeps n)
    (h : ∀ a < 2 ^ 32, p.admits (BitVec.ofNat 32 a) = true → m.read a = n.read a) : m = n := by
  refine Memory.ext_of_read hm.1 hn.1 fun a => ?_
  by_cases ha : a < 2 ^ 32 ∧ p.admits (BitVec.ofNat 32 a) = true
  · exact h a ha.1 ha.2
  · rw [hm.read_of_not_backed ha, hn.read_of_not_backed ha]

/-- What is seen in the address space: memory's byte where the address is admitted, nothing elsewhere. -/
theorem Platform.view_eq_ite (p : Platform) (m : Memory) {a : Nat} (ha : a < 2 ^ 32) :
    p.view m a = if p.admits (BitVec.ofNat 32 a) = true then some (m.read a) else none := by
  simp only [Platform.view, Platform.backs_iff, ha, true_and]

/-- A memory shows given bytes exactly where it holds them at the admitted addresses. -/
theorem Platform.view_eq_bytes_iff (p : Platform) (m : Memory) (bytes : Nat → Byte) :
    (∀ a < 2 ^ 32, p.view m a = if p.admits (BitVec.ofNat 32 a) = true then some (bytes a) else none) ↔
      ∀ a < 2 ^ 32, p.admits (BitVec.ofNat 32 a) = true → m.read a = bytes a := by
  refine forall_congr' fun a => forall_congr' fun ha => ?_
  rw [p.view_eq_ite m ha]
  split
  · next hadm => simp [hadm]
  · next hadm => simp [hadm]

/-- Settles O50: such a memory is built address by address, and reading determines it. -/
theorem everyLaunchMemoryIsOneState : Obligations.EveryLaunchMemoryIsOneState := by
  intro p bytes
  simp only [Platform.view_eq_bytes_iff, ← and_assoc]
  obtain ⟨m, hm, hread⟩ := p.exists_keeps_of_bytes bytes (2 ^ 32) (Nat.le_refl _)
  refine ⟨m, ⟨hm, hread⟩, fun n hn => ?_⟩
  obtain ⟨hkeeps, hreadn⟩ := hn
  exact Platform.Keeps.ext hkeeps hm fun a ha hadm => (hreadn a ha hadm).trans (hread a ha hadm).symm

/-! ## After reset -/

/-- Settles O35: every part but the bytes held is a closed fact about few values. -/
theorem resetMeetsTheRunInvariant : Obligations.ResetMeetsTheRunInvariant where
  platform := by decide
  memWf := by decide
  memAdmitted := by decide
  memHeld := State.byteAt_isSome _
  pcLegal := by decide
  pendingStorable := by decide
  singleDrained := by decide
  resvRising := by decide
  resvLegal := by decide
  resvUntracked := by decide
  idsDistinct := by decide

/-- At reset the one range of blocks is the whole address space. -/
theorem Platform.reset_admits (a : Addr) : Platform.reset.admits a = true := by
  have := a.isLt
  exact (Platform.admits_iff _ _).2 ⟨⟨0, 0xFFFFFFF⟩, List.mem_singleton.2 rfl, by simp only; omega, by simp only; omega⟩

/-- At reset every byte of the address space reads 0. -/
theorem State.reset_ownByte {a : Nat} (ha : a < 2 ^ 32) : State.reset.ownByte a = some 0x00#8 :=
  Platform.view_of_backs _ ((Platform.backs_iff _ _).2 ⟨ha, Platform.reset_admits _⟩)

/-- Settles O36: each value is the one that reset names. -/
theorem resetLeavesTheLoggedValues : Obligations.ResetLeavesTheLoggedValues :=
  ⟨fun r => Vector.getElem_replicate r.isLt, fun r => Vector.getElem_replicate r.isLt, rfl, rfl, rfl, rfl, rfl, rfl,
    fun _ ha => State.reset_ownByte ha, rfl, Platform.reset_admits, rfl, rfl, rfl, rfl, rfl, rfl⟩

end Sys2Proof.Machine
end
